-- ==== Sys2Proof/Word.lean ====
section
/-! DEFINITION. The words of the block: bytes, 16-bit words and addresses, 32-bit command words (R7, R9, R40). -/

namespace Sys2Proof

/-- A `u8` of R9: a byte of memory, or the contents of S, A, X, Y or P. -/
abbrev Byte := BitVec 8

/-- A `u16` of R9: an address, a word of memory, or the contents of PC. -/
abbrev Word := BitVec 16

/-- One command word of the transaction port (R40). -/
abbrev Command := BitVec 32

end Sys2Proof
end

