-- ==== Sys2Proof/Machine/Arith.lean ====
section
/-! DEFINITION. The arithmetic primitives of R9 and R10. Every addition is modular. -/

namespace Sys2Proof.Machine

/-- `add8(a, b) = (a + b) mod 256` (R10). -/
def add8 (a b : Byte) : Byte := a + b

/-- `add16(a, b) = (a + b) mod 65536` (R10). -/
def add16 (a b : Word) : Word := a + b

/-- `zext_16(v)`: bits 15:8 zero (R10). -/
def zext16 (v : Byte) : Word := v.setWidth 16

/-- `sext_16(v)`: the byte as two's complement (R10). -/
def sext16 (v : Byte) : Word := v.signExtend 16

/-- The concatenation `hi:lo` of two bytes (R9). -/
def concatBytes (hi lo : Byte) : Word := hi ++ lo

end Sys2Proof.Machine
end

