-- ==== Sys2Proof/Syntax.lean ====
section
/-! DEFINITION. The commands of the block as syntax: one constructor per row of spec/opcode_table.json (R41, R45, R46).
Operands have the width the spec gives them, so that no term of this type is ill-formed; what can be ill-formed is a
command WORD (Sys2Proof/WellFormed.lean). -/

namespace Sys2Proof

/-- One command (R41). -/
inductive Instr where
  /-- READ_MEM (R52). -/
  | readMem (addr : Word)
  /-- WRITE_MEM (R53). -/
  | writeMem (addr : Word) (data : Byte)
  /-- READ_WORD (R54). -/
  | readWord (addr : Word)
  /-- RESOLVE.ABS, Absolute, mode 0 (R58). -/
  | resolveAbs
  /-- RESOLVE.ABSX, AbsoluteX, mode 1 (R59). -/
  | resolveAbsx
  /-- RESOLVE.ABSY, AbsoluteY, mode 2 (R60). -/
  | resolveAbsy
  /-- RESOLVE.ZP, ZeroPage, mode 3 (R61). -/
  | resolveZp
  /-- RESOLVE.ZPX, ZeroPageX, mode 4 (R62). -/
  | resolveZpx
  /-- RESOLVE.ZPY, ZeroPageY, mode 5 (R63). -/
  | resolveZpy
  /-- RESOLVE.IMM, Immediate, mode 6 (R64). -/
  | resolveImm
  /-- RESOLVE.REL, Relative, mode 7 (R65). -/
  | resolveRel
  /-- RESOLVE.IMP, Implicit, mode 8 (R66). -/
  | resolveImp
  /-- RESOLVE.IND, Indirect, mode 9 (R67). -/
  | resolveInd
  /-- RESOLVE.IZX, IndexedIndirect, mode 10 (R69). -/
  | resolveIzx
  /-- RESOLVE.IZY, IndirectIndexed, mode 11 (R70). -/
  | resolveIzy
  /-- REG_WRITE.PC (R77). -/
  | regWritePc (value : Word)
  /-- REG_WRITE.S (R78). -/
  | regWriteS (value : Byte)
  /-- REG_WRITE.A (R79). -/
  | regWriteA (value : Byte)
  /-- REG_WRITE.X (R80). -/
  | regWriteX (value : Byte)
  /-- REG_WRITE.Y (R81). -/
  | regWriteY (value : Byte)
  /-- REG_WRITE.P (R82). -/
  | regWriteP (value : Byte)
  /-- REG_READ.PC (R83). -/
  | regReadPc
  /-- REG_READ.S (R84). -/
  | regReadS
  /-- REG_READ.A (R85). -/
  | regReadA
  /-- REG_READ.X (R86). -/
  | regReadX
  /-- REG_READ.Y (R87). -/
  | regReadY
  /-- REG_READ.P (R88). -/
  | regReadP
deriving DecidableEq, Repr

end Sys2Proof
end

