-- ==== Sys2Proof/WellFormed.lean ====
section
/-! DEFINITION. Which command WORDS are well-formed: R47's list of illegal words, bullet by bullet, and R48's reserved
modes. It is written from R47 and R48 alone and shares nothing with the decoder of Sys2Proof/Decode.lean, so that the
statement that the two agree says something. -/

namespace Sys2Proof

/-- The field `cmd[hi:lo]` of R9 as a number, `len` bits from bit `lo`. -/
def Command.bits (cmd : Command) (lo len : Nat) : Nat := cmd.toNat / 2 ^ lo % 2 ^ len

/-- R47, first bullet: `op` is 6 or 7. -/
def Command.opReserved (cmd : Command) : Bool := Command.bits cmd 0 3 ≥ 6

/-- R47, second bullet: a bit marked reserved in the word's format is 1. -/
def Command.reservedBitSet (cmd : Command) : Bool :=
  let op := Command.bits cmd 0 3
  (op ≤ 2 && Command.bits cmd 3 5 ≠ 0)
    || ((op = 0 || op = 2) && Command.bits cmd 8 8 ≠ 0)
    || (op = 3 && Command.bits cmd 7 25 ≠ 0)
    || ((op = 4 || op = 5) && Command.bits cmd 6 10 ≠ 0)
    || (op = 5 && Command.bits cmd 16 16 ≠ 0)

/-- R47, third bullet: `reg` is 6 or 7 in format G. -/
def Command.regReserved (cmd : Command) : Bool :=
  let op := Command.bits cmd 0 3
  (op = 4 || op = 5) && Command.bits cmd 3 3 ≥ 6

/-- R47, fourth bullet: REG_WRITE to an 8-bit register (reg 1 to 5) with `cmd[31:24] != 0`. -/
def Command.byteValueTooWide (cmd : Command) : Bool :=
  let reg := Command.bits cmd 3 3
  Command.bits cmd 0 3 = 4 && (1 ≤ reg && reg ≤ 5) && Command.bits cmd 24 8 ≠ 0

/-- R47: the command word is illegal. -/
def Command.illegal (cmd : Command) : Bool :=
  Command.opReserved cmd || Command.reservedBitSet cmd || Command.regReserved cmd || Command.byteValueTooWide cmd

/-- R48: an otherwise legal RESOLVE with `mode` 12 to 15. -/
def Command.reservedMode (cmd : Command) : Bool :=
  !Command.illegal cmd && Command.bits cmd 0 3 = 3 && Command.bits cmd 3 4 ≥ 12

/-- The word encodes one of the 27 rows of the opcode table: neither illegal (R47) nor of a reserved mode (R48). -/
def Command.wellFormed (cmd : Command) : Bool := !Command.illegal cmd && !Command.reservedMode cmd

end Sys2Proof
end

