-- ==== Sys2Proof/Decode.lean ====
section
/-! DEFINITION. The decoder of command words, total and rejecting by name (R40 to R48), then the encoder, then the
opcode table's rows and the WRITE_WORD pseudo-instruction (30_encoding.md section 7). -/

namespace Sys2Proof

/-- Why a command word names no command. -/
inductive DecodeError where
  /-- R47: an illegal word; the block raises IllegalCommand (R92). -/
  | illegalCommand
  /-- R48: RESOLVE with mode 12 to 15, otherwise legal; the block raises ReservedMode (R91). -/
  | reservedMode
deriving DecidableEq, Repr

/-- `op`, `cmd[2:0]` (R40). -/
def opField (cmd : Command) : BitVec 3 := cmd.extractLsb' 0 3

/-- Format M's reserved bits `cmd[7:3]` (R42). -/
def spareFieldM (cmd : Command) : BitVec 5 := cmd.extractLsb' 3 5

/-- Format M's `data`, `cmd[15:8]` (R42). -/
def dataField (cmd : Command) : Byte := cmd.extractLsb' 8 8

/-- Format M's `addr`, `cmd[31:16]` (R42). -/
def addrField (cmd : Command) : Word := cmd.extractLsb' 16 16

/-- Format R's `mode`, `cmd[6:3]` (R43). -/
def modeField (cmd : Command) : BitVec 4 := cmd.extractLsb' 3 4

/-- Format R's reserved bits `cmd[31:7]` (R43). -/
def spareFieldR (cmd : Command) : BitVec 25 := cmd.extractLsb' 7 25

/-- Format G's `reg`, `cmd[5:3]` (R44). -/
def regField (cmd : Command) : BitVec 3 := cmd.extractLsb' 3 3

/-- Format G's reserved bits `cmd[15:6]` (R44). -/
def spareFieldG (cmd : Command) : BitVec 10 := cmd.extractLsb' 6 10

/-- Format G's `value` for the 8-bit registers, `cmd[23:16]` (R44). -/
def byteValueField (cmd : Command) : Byte := cmd.extractLsb' 16 8

/-- The bits `cmd[31:24]`, zero in a REG_WRITE to an 8-bit register (R44). -/
def byteValueSpareField (cmd : Command) : Byte := cmd.extractLsb' 24 8

/-- Format G's `value` for PC, `cmd[31:16]` (R44). -/
def wordValueField (cmd : Command) : Word := cmd.extractLsb' 16 16

/-- The mode tags of R45. -/
def decodeMode (mode : BitVec 4) : Except DecodeError Instr :=
  match mode.toNat with
  | 0 => .ok .resolveAbs
  | 1 => .ok .resolveAbsx
  | 2 => .ok .resolveAbsy
  | 3 => .ok .resolveZp
  | 4 => .ok .resolveZpx
  | 5 => .ok .resolveZpy
  | 6 => .ok .resolveImm
  | 7 => .ok .resolveRel
  | 8 => .ok .resolveImp
  | 9 => .ok .resolveInd
  | 10 => .ok .resolveIzx
  | 11 => .ok .resolveIzy
  | _ => .error .reservedMode

/-- A REG_WRITE to an 8-bit register: the value must fit in a byte and is never truncated (R44, R47, R79). -/
def decodeByteWrite (write : Byte → Instr) (cmd : Command) : Except DecodeError Instr :=
  if byteValueSpareField cmd = 0 then .ok (write (byteValueField cmd)) else .error .illegalCommand

/-- The register codes of R46, for REG_WRITE. -/
def decodeRegWrite (cmd : Command) : Except DecodeError Instr :=
  match (regField cmd).toNat with
  | 0 => .ok (.regWritePc (wordValueField cmd))
  | 1 => decodeByteWrite .regWriteS cmd
  | 2 => decodeByteWrite .regWriteA cmd
  | 3 => decodeByteWrite .regWriteX cmd
  | 4 => decodeByteWrite .regWriteY cmd
  | 5 => decodeByteWrite .regWriteP cmd
  | _ => .error .illegalCommand

/-- The register codes of R46, for REG_READ. -/
def decodeRegRead (reg : BitVec 3) : Except DecodeError Instr :=
  match reg.toNat with
  | 0 => .ok .regReadPc
  | 1 => .ok .regReadS
  | 2 => .ok .regReadA
  | 3 => .ok .regReadX
  | 4 => .ok .regReadY
  | 5 => .ok .regReadP
  | _ => .error .illegalCommand

/-- The decoder (R40, R41): the op code selects the format; a reserved bit that is set makes the word illegal (R47),
before the mode tag is looked at (R98). -/
def decode (cmd : Command) : Except DecodeError Instr :=
  match (opField cmd).toNat with
  | 0 => if spareFieldM cmd = 0 ∧ dataField cmd = 0 then .ok (.readMem (addrField cmd)) else .error .illegalCommand
  | 1 => if spareFieldM cmd = 0 then .ok (.writeMem (addrField cmd) (dataField cmd)) else .error .illegalCommand
  | 2 => if spareFieldM cmd = 0 ∧ dataField cmd = 0 then .ok (.readWord (addrField cmd)) else .error .illegalCommand
  | 3 => if spareFieldR cmd = 0 then decodeMode (modeField cmd) else .error .illegalCommand
  | 4 => if spareFieldG cmd = 0 then decodeRegWrite cmd else .error .illegalCommand
  | 5 => if spareFieldG cmd = 0 ∧ wordValueField cmd = 0 then decodeRegRead (regField cmd) else .error .illegalCommand
  | _ => .error .illegalCommand

/-- A format M word (R42). -/
def formatM (addr : Word) (data : Byte) (op : BitVec 3) : Command := addr ++ data ++ 0#5 ++ op

/-- A format R word (R43); `op` is 3. -/
def formatR (mode : BitVec 4) : Command := 0#25 ++ mode ++ 3#3

/-- A format G word (R44). -/
def formatG (value : Word) (reg op : BitVec 3) : Command := value ++ 0#10 ++ reg ++ op

/-- A REG_WRITE to an 8-bit register: `cmd[31:24]` = 0, the value in `cmd[23:16]` (R44). -/
def formatByteWrite (value : Byte) (reg : BitVec 3) : Command := formatG (0#8 ++ value) reg 4#3

/-- The encoder: the command word of a command (R41 to R46). -/
def encode : Instr → Command
  | .readMem addr => formatM addr 0 0
  | .writeMem addr data => formatM addr data 1
  | .readWord addr => formatM addr 0 2
  | .resolveAbs => formatR 0
  | .resolveAbsx => formatR 1
  | .resolveAbsy => formatR 2
  | .resolveZp => formatR 3
  | .resolveZpx => formatR 4
  | .resolveZpy => formatR 5
  | .resolveImm => formatR 6
  | .resolveRel => formatR 7
  | .resolveImp => formatR 8
  | .resolveInd => formatR 9
  | .resolveIzx => formatR 10
  | .resolveIzy => formatR 11
  | .regWritePc value => formatG value 0 4
  | .regWriteS value => formatByteWrite value 1
  | .regWriteA value => formatByteWrite value 2
  | .regWriteX value => formatByteWrite value 3
  | .regWriteY value => formatByteWrite value 4
  | .regWriteP value => formatByteWrite value 5
  | .regReadPc => formatG 0 0 5
  | .regReadS => formatG 0 1 5
  | .regReadA => formatG 0 2 5
  | .regReadX => formatG 0 3 5
  | .regReadY => formatG 0 4 5
  | .regReadP => formatG 0 5 5

/-- One row of spec/opcode_table.json: the word belongs to the row iff `cmd & mask = pattern`. -/
structure OpcodeRow where
  pattern : Command
  mask : Command
deriving DecidableEq, Repr

/-- The row's test on a command word. -/
def OpcodeRow.matches (row : OpcodeRow) (cmd : Command) : Bool := cmd &&& row.mask = row.pattern

/-- The match and mask of each command's row, as its own rule gives them (R52 to R54, R58 to R70, R77 to R88). -/
def Instr.row : Instr → OpcodeRow
  | .readMem _ => ⟨0x00000000, 0x0000FFFF⟩
  | .writeMem _ _ => ⟨0x00000001, 0x000000FF⟩
  | .readWord _ => ⟨0x00000002, 0x0000FFFF⟩
  | .resolveAbs => ⟨0x00000003, 0xFFFFFFFF⟩
  | .resolveAbsx => ⟨0x0000000B, 0xFFFFFFFF⟩
  | .resolveAbsy => ⟨0x00000013, 0xFFFFFFFF⟩
  | .resolveZp => ⟨0x0000001B, 0xFFFFFFFF⟩
  | .resolveZpx => ⟨0x00000023, 0xFFFFFFFF⟩
  | .resolveZpy => ⟨0x0000002B, 0xFFFFFFFF⟩
  | .resolveImm => ⟨0x00000033, 0xFFFFFFFF⟩
  | .resolveRel => ⟨0x0000003B, 0xFFFFFFFF⟩
  | .resolveImp => ⟨0x00000043, 0xFFFFFFFF⟩
  | .resolveInd => ⟨0x0000004B, 0xFFFFFFFF⟩
  | .resolveIzx => ⟨0x00000053, 0xFFFFFFFF⟩
  | .resolveIzy => ⟨0x0000005B, 0xFFFFFFFF⟩
  | .regWritePc _ => ⟨0x00000004, 0x0000FFFF⟩
  | .regWriteS _ => ⟨0x0000000C, 0xFF00FFFF⟩
  | .regWriteA _ => ⟨0x00000014, 0xFF00FFFF⟩
  | .regWriteX _ => ⟨0x0000001C, 0xFF00FFFF⟩
  | .regWriteY _ => ⟨0x00000024, 0xFF00FFFF⟩
  | .regWriteP _ => ⟨0x0000002C, 0xFF00FFFF⟩
  | .regReadPc => ⟨0x00000005, 0xFFFFFFFF⟩
  | .regReadS => ⟨0x0000000D, 0xFFFFFFFF⟩
  | .regReadA => ⟨0x00000015, 0xFFFFFFFF⟩
  | .regReadX => ⟨0x0000001D, 0xFFFFFFFF⟩
  | .regReadY => ⟨0x00000025, 0xFFFFFFFF⟩
  | .regReadP => ⟨0x0000002D, 0xFFFFFFFF⟩

/-- The pseudo-instruction `WRITE_WORD addr, word` (30_encoding.md section 7): the low byte at `addr`, then the high
byte at `add16(addr, 1)`. -/
def expandWriteWord (addr word : Word) : List Instr :=
  [.writeMem addr (word.extractLsb' 0 8), .writeMem (addr + 1) (word.extractLsb' 8 8)]

/-- The command word whose lowest `nbits` bits are those of `w` and whose other bits are 0. A command is exactly one
32-bit word (R40), so bits from 32 up have no place in it. -/
def commandOfTableWord (nbits w : Nat) : Command := BitVec.ofNat 32 (w % 2 ^ nbits)

/-- What the decoder reads from a word numbered as spec/opcode_table.json numbers it. -/
def decodeTableWord (nbits w : Nat) : Option Instr :=
  match decode (commandOfTableWord nbits w) with
  | .ok i => some i
  | .error _ => none

end Sys2Proof
end

