-- ==== Sys2Proof/Config.lean ====
section
/-! DEFINITION. The configuration parameters of R8 that an instance fixes for its life. INIT_IMAGE, the third
parameter of R8, is the argument of the reset (R104) and stands in the reset input. -/

namespace Sys2Proof

/-- The two Bool parameters of R8. Both are open for a model of one product (D15, D16), so every statement of this
package holds for both settings unless it names one. The field defaults are R8's defaults. -/
structure Config where
  /-- IND_PAGE_WRAP: the page-wrap quirk of Indirect mode (R67). -/
  indPageWrap : Bool := false
  /-- ZP_PTR_WRAP: the second byte of a zero-page pointer wraps in page 0 (R68). -/
  zpPtrWrap : Bool := false
deriving DecidableEq, Repr

end Sys2Proof
end

