-- ==== Sys2Proof/Machine/State.lean ====
section
/-! DEFINITION. The state of one block instance (10_state.md), as plain data. Beside what R14 to R25 give the block it
holds the parameters of R8, the latest response and the host's inputs, because the step is a function of the state
alone (logs 2, 3, 4). -/

namespace Sys2Proof.Machine

/-- `Cell t = Unset | Val (v : t)` of 10_state.md. `Unset` is the spec's own state of a register that nothing has
written since reset (R19), and its reset value (R24). -/
inductive RegCell (α : Type) where
  | unset
  | val (v : α)
deriving DecidableEq, Repr

/-- The six registers, under the tags of R14. P is an opaque byte (R18). -/
structure RegFile where
  pc : RegCell Word
  s : RegCell Byte
  a : RegCell Byte
  x : RegCell Byte
  y : RegCell Byte
  p : RegCell Byte
deriving DecidableEq, Repr

/-- Memory as address and byte pairs. The canonical form `Memory.wf`, what an unlisted address reads as, and every
operation stand in Machine/Ops.lean. -/
structure Memory where
  cells : List Host.Cell
deriving DecidableEq, Repr

/-- INIT_IMAGE, the 65536-byte image a reset takes (R8, R104), given by its bytes that differ from the fill byte; where
an address is listed twice the first entry counts (`Image.byteAt`). Every 65536-byte image has this form (log 1). -/
abbrev Image := List (Word × Byte)

/-- The fault causes of R89. -/
inductive Cause where
  /-- Code 1: RESOLVE of Implicit mode (R90). -/
  | invalidModeForResolution
  /-- Code 2: RESOLVE with mode 12 to 15 (R91). -/
  | reservedMode
  /-- Code 3: a command word that R47 calls illegal (R92). -/
  | illegalCommand
  /-- Code 4: the command reads a register cell that is `Unset` (R93). -/
  | uninitializedRegister
  /-- Code 5: unreachable with u16 addresses (R94). -/
  | outOfRangeAccess
deriving DecidableEq, Repr

/-- What the fault latch records: the cause and the full command word, nothing else (R21, R89). -/
structure FaultRecord where
  cause : Cause
  cmd : Command
deriving DecidableEq, Repr

/-- The response to a command (R49). -/
structure Response where
  status : BitVec 3
  value : Word
deriving DecidableEq, Repr

/-- What the host can send to the block. -/
inductive HostInput where
  /-- One command word at the transaction port (R3, R40). -/
  | command (cmd : Command)
  /-- `reset(INIT_IMAGE)`, an operation of the host (R104). -/
  | reset (image : Image)
deriving DecidableEq, Repr

/-- The state of the block. -/
structure State where
  /-- The register file (R14). -/
  regs : RegFile
  /-- The 65536 bytes of memory (R20). -/
  mem : Memory
  /-- The fault latch (R21). -/
  fault : Option FaultRecord
  /-- The response to the latest command, `none` before the first one after a reset (R49; DESIGN CHOICE, log 3). -/
  resp : Option Response
  /-- What the host has still to send, in its order (R36; DESIGN CHOICE, log 4). -/
  pending : List HostInput
  /-- The parameters of R8, fixed for the life of the instance (DESIGN CHOICE, log 2). -/
  config : Config
deriving DecidableEq, Repr

/-- What stops the machine. -/
inductive Fault where
  /-- Raised by every command while the fault latch is set, and by a step that finds no input then: the block accepts no
  command until a reset (R96). The record is the latch's. Safe: the spec gives no step here. -/
  | halted (record : FaultRecord)
deriving DecidableEq, Repr

/-- Why a command has no meaning in this model. -/
inductive Refusal where
  /-- Raised by an arm of `exec` whose instruction has no meaning yet; safe. No arm of this model answers it. -/
  | notModelled (mnemonic : String)
deriving DecidableEq, Repr

/-- The outcome of a command or a step of this machine. -/
abbrev Result := Host.Outcome State Fault Refusal

/-- Every register `Unset` (R24, R25). -/
def RegFile.unwritten : RegFile :=
  { pc := .unset, s := .unset, a := .unset, x := .unset, y := .unset, p := .unset }

/-- The state after a reset with the image that lists nothing (R24; DESIGN CHOICE for the image, log 1), R8's default
parameters, no response yet and nothing sent by the host. A reset with any other image is `hostReset`. -/
def State.reset : State :=
  { regs := RegFile.unwritten
    mem := { cells := [] }
    fault := none
    resp := none
    pending := []
    config := {} }

end Sys2Proof.Machine
end

