-- ==== Sys2Proof/Machine/Flags.lean ====
section
/-! DEFINITION. What the block reports about a command. It has no flag computation: "There is no carry, overflow, zero
or negative output, and no flag is written" (R72), and P is an opaque byte (R18). The status of the response is the
only condition it gives out (R49, R89). -/

namespace Sys2Proof.Machine

/-- The cause codes of R89. -/
def Cause.code : Cause → BitVec 3
  | .invalidModeForResolution => 1
  | .reservedMode => 2
  | .illegalCommand => 3
  | .uninitializedRegister => 4
  | .outOfRangeAccess => 5

/-- The cause a word that names no command raises (R91, R92). -/
def causeOfDecodeError : DecodeError → Cause
  | .illegalCommand => .illegalCommand
  | .reservedMode => .reservedMode

/-- The response of a command that succeeds: status 0 (R49). -/
def Response.success (value : Word) : Response := { status := 0, value := value }

/-- The response of a command that faults: the cause code and value 0x0000 (R49, R95). -/
def Response.failure (cause : Cause) : Response := { status := cause.code, value := 0 }

/-- The 19-bit packing of R49: status in bits 18:16, value in bits 15:0. -/
def Response.packed (r : Response) : BitVec 19 := r.status ++ r.value

end Sys2Proof.Machine
end

