-- ==== Sys2Proof/Machine/Ops.lean ====
section
/-! DEFINITION. The named operations over memory, registers and the fault latch that the meanings share: R11's state
primitives, R12's word read, R95's fault entry and R104's reset. -/

namespace Sys2Proof.Machine

/-! ### Memory -/

/-- What an address that no cell lists reads as (DESIGN CHOICE, log 1). -/
def unlistedByte : Byte := 0

/-- The canonical form: addresses strictly rising and below 65536, no entry equal to what an unlisted address reads as.
Equal memories in this form are equal data. -/
abbrev Memory.wf (m : Memory) : Prop :=
  m.cells.Pairwise (fun c d => c.1 < d.1) ∧ ∀ c ∈ m.cells, c.1 < 65536 ∧ c.2 ≠ unlistedByte

/-- The byte at address `n` in a list of cells whose addresses rise. -/
def lookupCell (n : Nat) : List Host.Cell → Byte
  | [] => unlistedByte
  | c :: rest => if n = c.1 then c.2 else if n < c.1 then unlistedByte else lookupCell n rest

/-- The cells with the byte at address `n` replaced, in canonical form. -/
def storeCell (n : Nat) (b : Byte) : List Host.Cell → List Host.Cell
  | [] => if b = unlistedByte then [] else [(n, b)]
  | c :: rest =>
    if n = c.1 then (if b = unlistedByte then rest else (n, b) :: rest)
    else if n < c.1 then (if b = unlistedByte then c :: rest else (n, b) :: c :: rest)
    else c :: storeCell n b rest

/-- `MemRead(a, 1)` (R11). Every u16 is an address (R20). -/
def Memory.read (m : Memory) (a : Word) : Byte := lookupCell a.toNat m.cells

/-- `MemWrite(a, 1, v)` (R11, R31). -/
def Memory.write (m : Memory) (a : Word) (v : Byte) : Memory := { cells := storeCell a.toNat v m.cells }

/-- `MemRead(a, 2)`: the little-endian word, its high byte at `add16(a, 1)` (R12, R27). -/
def Memory.readWord (m : Memory) (a : Word) : Word := concatBytes (m.read (add16 a 1)) (m.read a)

/-- `INIT_IMAGE[a]`. -/
def Image.byteAt : Image → Word → Byte
  | [], _ => unlistedByte
  | c :: rest, a => if a = c.1 then c.2 else Image.byteAt rest a

/-- The memory that holds an image: `mem[a] <- INIT_IMAGE[a]` for every address (R104). -/
def Memory.ofImage : Image → Memory
  | [] => { cells := [] }
  | c :: rest => (Memory.ofImage rest).write c.1 c.2

/-! ### State updates -/

/-- `resp <- v` on success (R11, R49). -/
def respond (v : Word) (st : State) : State := { st with resp := some (Response.success v) }

/-- `mem[a] <- v` (R11). -/
def storeByte (a : Word) (v : Byte) (st : State) : State := { st with mem := st.mem.write a v }

/-- `x[PC] <- v` (R11, R77). -/
def setPc (v : Word) (st : State) : State := { st with regs := { st.regs with pc := .val v } }

/-- `x[S] <- v` (R11, R78). -/
def setS (v : Byte) (st : State) : State := { st with regs := { st.regs with s := .val v } }

/-- `x[A] <- v` (R11, R79). -/
def setA (v : Byte) (st : State) : State := { st with regs := { st.regs with a := .val v } }

/-- `x[X] <- v` (R11, R80). -/
def setX (v : Byte) (st : State) : State := { st with regs := { st.regs with x := .val v } }

/-- `x[Y] <- v` (R11, R81). -/
def setY (v : Byte) (st : State) : State := { st with regs := { st.regs with y := .val v } }

/-- `x[P] <- v` (R11, R82): the byte whole, no bit with a meaning (R18). -/
def setP (v : Byte) (st : State) : State := { st with regs := { st.regs with p := .val v } }

/-- The host's inputs that are left once the port has taken one (log 4). -/
def setPending (rest : List HostInput) (st : State) : State := { st with pending := rest }

/-! ### Faults and reset -/

/-- Fault entry (R95): the latch records the cause and the command word, the response carries the cause, and nothing
else changes. -/
def enterFault (cause : Cause) (cmd : Command) (st : State) : State :=
  { st with fault := some { cause := cause, cmd := cmd }, resp := some (Response.failure cause) }

/-- `raise <Cause>`: ends the current command with the fault entry (R11, R95). -/
def raise (cause : Cause) (cmd : Command) (st : State) : Result := .next (enterFault cause cmd st)

/-- The first check of R98: while the latch is set there is no step for any command (R96). -/
def whileRunning (st : State) (act : Result) : Result :=
  match st.fault with
  | none => act
  | some record => .fault (.halted record)

/-- `x[r]`: the value of a register cell, or UninitializedRegister (R11, R93). -/
def readCell {α : Type} (cell : RegCell α) (cmd : Command) (st : State) (use : α → Result) : Result :=
  match cell with
  | .unset => raise .uninitializedRegister cmd st
  | .val v => use v

/-- `reset(INIT_IMAGE)` (R104), the only way out of a fault (R97): memory from the image, every register `Unset`, the
latch clear. The parameters of R8 and the host's later inputs stay; the earlier response is gone (log 3). -/
def hostReset (image : Image) (st : State) : State :=
  { regs := RegFile.unwritten
    mem := Memory.ofImage image
    fault := none
    resp := none
    pending := st.pending
    config := st.config }

end Sys2Proof.Machine
end

