-- ==== Sys2Proof/Machine/MemoryAccess.lean ====
section
/-! DEFINITION. The memory accessor commands (40_memory_accessors.md). -/

namespace Sys2Proof.Machine

/-- READ_MEM (R52). -/
def execReadMem (addr : Word) (st : State) : Result :=
  whileRunning st (.next (respond (zext16 (st.mem.read addr)) st))

/-- WRITE_MEM (R53). -/
def execWriteMem (addr : Word) (data : Byte) (st : State) : Result :=
  whileRunning st (.next (respond 0 (storeByte addr data st)))

/-- READ_WORD (R54): linear, whatever the parameters of R8. -/
def execReadWord (addr : Word) (st : State) : Result :=
  whileRunning st (.next (respond (st.mem.readWord addr) st))

end Sys2Proof.Machine
end

