-- ==== Sys2Proof/Machine/RegisterPort.lean ====
section
/-! DEFINITION. The register port commands (42_register_port.md). -/

namespace Sys2Proof.Machine

/-- The common form of REG_WRITE (R76): the cell becomes `Val v`, the response value is 0x0000. -/
def writePort (update : State → State) (st : State) : Result := whileRunning st (.next (respond 0 (update st)))

/-- The common form of REG_READ (R76): the value as a u16, or UninitializedRegister. -/
def readPort {α : Type} (cmd : Command) (cell : RegCell α) (toWord : α → Word) (st : State) : Result :=
  whileRunning st (readCell cell cmd st fun v => .next (respond (toWord v) st))

/-- REG_WRITE.PC (R77). -/
def execRegWritePc (v : Word) (st : State) : Result := writePort (setPc v) st

/-- REG_WRITE.S (R78). -/
def execRegWriteS (v : Byte) (st : State) : Result := writePort (setS v) st

/-- REG_WRITE.A (R79). -/
def execRegWriteA (v : Byte) (st : State) : Result := writePort (setA v) st

/-- REG_WRITE.X (R80). -/
def execRegWriteX (v : Byte) (st : State) : Result := writePort (setX v) st

/-- REG_WRITE.Y (R81). -/
def execRegWriteY (v : Byte) (st : State) : Result := writePort (setY v) st

/-- REG_WRITE.P (R82). -/
def execRegWriteP (v : Byte) (st : State) : Result := writePort (setP v) st

/-- REG_READ.PC (R83). -/
def execRegReadPc (st : State) : Result := readPort (encode .regReadPc) st.regs.pc id st

/-- REG_READ.S (R84). -/
def execRegReadS (st : State) : Result := readPort (encode .regReadS) st.regs.s zext16 st

/-- REG_READ.A (R85). -/
def execRegReadA (st : State) : Result := readPort (encode .regReadA) st.regs.a zext16 st

/-- REG_READ.X (R86). -/
def execRegReadX (st : State) : Result := readPort (encode .regReadX) st.regs.x zext16 st

/-- REG_READ.Y (R87). -/
def execRegReadY (st : State) : Result := readPort (encode .regReadY) st.regs.y zext16 st

/-- REG_READ.P (R88). -/
def execRegReadP (st : State) : Result := readPort (encode .regReadP) st.regs.p zext16 st

end Sys2Proof.Machine
end

