-- ==== Sys2Proof/Machine/Operands.lean ====
section
/-! DEFINITION. The operand forms: the effective-address rule of each addressing mode (41_resolve.md, R50, R51, R55 to
R70), as pure functions of memory, the operand address, the index and the parameters of R8. -/

namespace Sys2Proof.Machine

/-- The operand address `opnd = add16(PC, 1)` (R56). -/
def operandAddress (pc : Word) : Word := add16 pc 1

/-- The high byte's address in the second dereference of Indirect mode: in the pointer's own page under IND_PAGE_WRAP
when the pointer's low byte is 0xFF, else `add16(ptr, 1)` (R67). -/
def indirectHighAddress (cfg : Config) (ptr : Word) : Word :=
  if cfg.indPageWrap ∧ ptr.extractLsb' 0 8 = 0xFF#8 then ptr &&& 0xFF00#16 else add16 ptr 1

/-- The second byte's address of a zero-page pointer (R68). -/
def zpHighAddress (cfg : Config) (zp : Byte) : Word :=
  if cfg.zpPtrWrap then zext16 (add8 zp 1) else add16 (zext16 zp) 1

/-- `ZpWord(zp)` (R68). -/
def zpWord (cfg : Config) (m : Memory) (zp : Byte) : Word :=
  concatBytes (m.read (zpHighAddress cfg zp)) (m.read (zext16 zp))

/-- Absolute (R58). -/
def eaAbsolute (m : Memory) (opnd : Word) : Word := m.readWord opnd

/-- AbsoluteX and AbsoluteY, by their index (R59, R60): 16-bit wraparound. -/
def eaAbsoluteIndexed (m : Memory) (opnd : Word) (idx : Byte) : Word := add16 (m.readWord opnd) (zext16 idx)

/-- ZeroPage (R61). -/
def eaZeroPage (m : Memory) (opnd : Word) : Word := zext16 (m.read opnd)

/-- ZeroPageX and ZeroPageY, by their index (R62, R63): 8-bit wraparound, then zero-extended. -/
def eaZeroPageIndexed (m : Memory) (opnd : Word) (idx : Byte) : Word := zext16 (add8 (m.read opnd) idx)

/-- Immediate (R64): the operand's own address. -/
def eaImmediate (opnd : Word) : Word := opnd

/-- Relative (R65): the base is the operand's own address, not the address after it (C8). -/
def eaRelative (m : Memory) (opnd : Word) : Word := add16 opnd (sext16 (m.read opnd))

/-- Indirect (R67). The operand word is always read linearly. -/
def eaIndirect (cfg : Config) (m : Memory) (opnd : Word) : Word :=
  let ptr := m.readWord opnd
  concatBytes (m.read (indirectHighAddress cfg ptr)) (m.read ptr)

/-- IndexedIndirect, "(indirect,X)" (R69): pre-index, 8-bit wraparound. -/
def eaIndexedIndirect (cfg : Config) (m : Memory) (opnd : Word) (idx : Byte) : Word :=
  zpWord cfg m (add8 (m.read opnd) idx)

/-- IndirectIndexed, "(indirect,Y)" (R70): post-index, 16-bit wraparound. -/
def eaIndirectIndexed (cfg : Config) (m : Memory) (opnd : Word) (idx : Byte) : Word :=
  add16 (zpWord cfg m (m.read opnd)) (zext16 idx)

/-- RESOLVE in a mode without an index (R55): PC is read, then the effective address is the response. -/
def resolveWith (cmd : Command) (ea : Word → Word) (st : State) : Result :=
  whileRunning st
    (readCell st.regs.pc cmd st fun pc => .next (respond (ea (operandAddress pc)) st))

/-- RESOLVE in an indexed mode (R55, R57): PC is checked before the index register (R98). -/
def resolveIndexedWith (cmd : Command) (index : RegCell Byte) (ea : Word → Byte → Word) (st : State) : Result :=
  whileRunning st
    (readCell st.regs.pc cmd st fun pc =>
      readCell index cmd st fun idx => .next (respond (ea (operandAddress pc) idx) st))

end Sys2Proof.Machine
end

