-- ==== Sys2Proof/Machine/Resolve.lean ====
section
/-! DEFINITION. RESOLVE in the twelve addressing modes (41_resolve.md). -/

namespace Sys2Proof.Machine

/-- RESOLVE.ABS (R58). -/
def execResolveAbs (st : State) : Result := resolveWith (encode .resolveAbs) (eaAbsolute st.mem) st

/-- RESOLVE.ABSX (R59). -/
def execResolveAbsx (st : State) : Result :=
  resolveIndexedWith (encode .resolveAbsx) st.regs.x (eaAbsoluteIndexed st.mem) st

/-- RESOLVE.ABSY (R60). -/
def execResolveAbsy (st : State) : Result :=
  resolveIndexedWith (encode .resolveAbsy) st.regs.y (eaAbsoluteIndexed st.mem) st

/-- RESOLVE.ZP (R61). -/
def execResolveZp (st : State) : Result := resolveWith (encode .resolveZp) (eaZeroPage st.mem) st

/-- RESOLVE.ZPX (R62). -/
def execResolveZpx (st : State) : Result :=
  resolveIndexedWith (encode .resolveZpx) st.regs.x (eaZeroPageIndexed st.mem) st

/-- RESOLVE.ZPY (R63). -/
def execResolveZpy (st : State) : Result :=
  resolveIndexedWith (encode .resolveZpy) st.regs.y (eaZeroPageIndexed st.mem) st

/-- RESOLVE.IMM (R64). -/
def execResolveImm (st : State) : Result := resolveWith (encode .resolveImm) eaImmediate st

/-- RESOLVE.REL (R65). -/
def execResolveRel (st : State) : Result := resolveWith (encode .resolveRel) (eaRelative st.mem) st

/-- RESOLVE.IMP (R66, R90): its one effect is the fault entry, whatever the registers hold; none is read. -/
def execResolveImp (st : State) : Result :=
  whileRunning st (raise .invalidModeForResolution (encode .resolveImp) st)

/-- RESOLVE.IND (R67). -/
def execResolveInd (st : State) : Result := resolveWith (encode .resolveInd) (eaIndirect st.config st.mem) st

/-- RESOLVE.IZX (R69). -/
def execResolveIzx (st : State) : Result :=
  resolveIndexedWith (encode .resolveIzx) st.regs.x (eaIndexedIndirect st.config st.mem) st

/-- RESOLVE.IZY (R70). -/
def execResolveIzy (st : State) : Result :=
  resolveIndexedWith (encode .resolveIzy) st.regs.y (eaIndirectIndexed st.config st.mem) st

end Sys2Proof.Machine
end

