-- ==== Sys2Proof/Machine/Dispatch.lean ====
section
/-! DEFINITION. The dispatch: one arm per command. -/

namespace Sys2Proof.Machine

/-- One command on a state (R13, R41). -/
def exec (i : Instr) (s : State) : Host.Outcome State Fault Refusal :=
  match i with
  | .readMem addr => Sys2Proof.Machine.execReadMem addr s
  | .writeMem addr data => Sys2Proof.Machine.execWriteMem addr data s
  | .readWord addr => Sys2Proof.Machine.execReadWord addr s
  | .resolveAbs => Sys2Proof.Machine.execResolveAbs s
  | .resolveAbsx => Sys2Proof.Machine.execResolveAbsx s
  | .resolveAbsy => Sys2Proof.Machine.execResolveAbsy s
  | .resolveZp => Sys2Proof.Machine.execResolveZp s
  | .resolveZpx => Sys2Proof.Machine.execResolveZpx s
  | .resolveZpy => Sys2Proof.Machine.execResolveZpy s
  | .resolveImm => Sys2Proof.Machine.execResolveImm s
  | .resolveRel => Sys2Proof.Machine.execResolveRel s
  | .resolveImp => Sys2Proof.Machine.execResolveImp s
  | .resolveInd => Sys2Proof.Machine.execResolveInd s
  | .resolveIzx => Sys2Proof.Machine.execResolveIzx s
  | .resolveIzy => Sys2Proof.Machine.execResolveIzy s
  | .regWritePc value => Sys2Proof.Machine.execRegWritePc value s
  | .regWriteS value => Sys2Proof.Machine.execRegWriteS value s
  | .regWriteA value => Sys2Proof.Machine.execRegWriteA value s
  | .regWriteX value => Sys2Proof.Machine.execRegWriteX value s
  | .regWriteY value => Sys2Proof.Machine.execRegWriteY value s
  | .regWriteP value => Sys2Proof.Machine.execRegWriteP value s
  | .regReadPc => Sys2Proof.Machine.execRegReadPc s
  | .regReadS => Sys2Proof.Machine.execRegReadS s
  | .regReadA => Sys2Proof.Machine.execRegReadA s
  | .regReadX => Sys2Proof.Machine.execRegReadX s
  | .regReadY => Sys2Proof.Machine.execRegReadY s
  | .regReadP => Sys2Proof.Machine.execRegReadP s

end Sys2Proof.Machine
end

