-- ==== Sys2Proof/Machine/Port.lean ====
section
/-! DEFINITION. The transaction port: one command word in, its meaning or its fault out (R3, R13, R98), and how the
port takes the host's next input. -/

namespace Sys2Proof.Machine

/-- One transaction (R13): the word's command, or the fault a word raises that names no command (R91, R92). The halt
check comes before the encoding checks, and those before any other (R98). -/
def transact (cmd : Command) (st : State) : Result :=
  match decode cmd with
  | .ok i => exec i st
  | .error e => whileRunning st (raise (causeOfDecodeError e) cmd st)

/-- The port takes the host's next input. A reset is taken in any state (R104). With no input the block waits, since it
"never stops on its own" (R111; DESIGN CHOICE, log 6), unless it is halted (R96). -/
def takeInput (st : State) : Result :=
  match st.pending with
  | [] => whileRunning st (.next st)
  | .command cmd :: rest => transact cmd (setPending rest st)
  | .reset image :: rest => .next (hostReset image (setPending rest st))

/-- The command put in front of all that the host has still to send (log 8). -/
def sendNext (cmd : Command) (st : State) : State := setPending (.command cmd :: st.pending) st

end Sys2Proof.Machine
end

