-- ==== Sys2Proof/Machine/Step.lean ====
section
/-! DEFINITION. One step of the machine, and the state in which the next step runs a given command. -/

namespace Sys2Proof.Machine

/-- One step: the port takes the host's next input. -/
def step (s : State) : Host.Outcome State Fault Refusal := takeInput s

/-- The state in which the next step runs the command whose lowest `nbits` bits are those of `w` (log 8). -/
def State.withFetchWord (s : State) (nbits w : Nat) : State := sendNext (commandOfTableWord nbits w) s

end Sys2Proof.Machine
end

