-- ==== Sys2Proof/Safety.lean ====
section
/-! DEFINITION. What a safe run is, in the terms the statements use: the two ways a command ends, which fault a command
word raises (R98's order of checks, written from the tables of R45 to R47 and R57 and not from the decoder or the
meanings), the addresses of 41_resolve.md as numbers, and the invariant that every step keeps. Nothing here is used by
the machine. -/

namespace Sys2Proof.Machine

/-- The block takes commands: the fault latch is clear (R96). "reaching it", a latch that is set, is failure. -/
abbrev State.running (s : State) : Prop := s.fault = none

/-- The state after a command that succeeds with `value` and changes nothing: only the response is new (R49). -/
def State.answered (s : State) (value : Word) : State := { s with resp := some { status := 0, value := value } }

/-- The state after a fault entry (R95): the latch holds the cause and the word, the response is the cause's code with
value 0x0000, and nothing else changes. -/
def State.latched (s : State) (cause : Cause) (code : BitVec 3) (cmd : Command) : State :=
  { s with fault := some { cause := cause, cmd := cmd }, resp := some { status := code, value := 0 } }

/-- The commands `is` in order, stopping where one has no step. -/
def runAll : List Instr → State → Result
  | [], s => .next s
  | i :: is, s =>
    match exec i s with
    | .next t => runAll is t
    | .fault r => .fault r
    | .refused r => .refused r

/-! ### The addresses of 41_resolve.md as numbers -/

/-- The RESOLVE commands of the eleven modes that compute an address (C3). -/
def addressModes : List Instr :=
  [.resolveAbs, .resolveAbsx, .resolveAbsy, .resolveZp, .resolveZpx, .resolveZpy, .resolveImm, .resolveRel, .resolveInd,
    .resolveIzx, .resolveIzy]

/-- The modes that read X (R57). -/
def xModes : List Instr := [.resolveAbsx, .resolveZpx, .resolveIzx]

/-- The modes that read Y (R57). -/
def yModes : List Instr := [.resolveAbsy, .resolveZpy, .resolveIzy]

/-- The operand byte, at PC+1 (R50, R51). -/
def operandByte (s : State) (pc : Word) : Byte := s.mem.read (pc + 1)

/-- The two-byte operand, low byte at PC+1 and high byte at PC+2 (R50, R51). -/
def operandWord (s : State) (pc : Word) : Nat := 256 * (s.mem.read (pc + 2)).toNat + (s.mem.read (pc + 1)).toNat

/-- `ZpWord(zp)` as a number (R68). -/
def zpPointer (s : State) (zp : Nat) : Nat :=
  256 * (s.mem.read (BitVec.ofNat 16 (if s.config.zpPtrWrap then (zp + 1) % 256 else zp + 1))).toNat
    + (s.mem.read (BitVec.ofNat 16 zp)).toNat

/-- What Indirect mode reads at the pointer `ptr` as a number (R67): in the pointer's page under IND_PAGE_WRAP, where a
low byte of 0xFF makes the page's first address `ptr - 255`. -/
def indirectWord (s : State) (ptr : Word) : Nat :=
  256 * (s.mem.read (if s.config.indPageWrap ∧ ptr.toNat % 256 = 255 then ptr - 255 else ptr + 1)).toNat
    + (s.mem.read ptr).toNat

/-- The RESOLVE command `i`, encoded as `cmd`, reads PC alone of the registers: it answers the address `ea`, or takes
UninitializedRegister (code 4) when PC is `Unset`; nothing else changes in either case. -/
def ResolvesTo (i : Instr) (cmd : Command) (ea : State → Word → Nat) : Prop :=
  encode i = cmd ∧ ∀ s : State, s.running →
    (∀ pc, s.regs.pc = .val pc → ∃ v : Word, v.toNat = ea s pc ∧ exec i s = .next (s.answered v)) ∧
    (s.regs.pc = .unset → exec i s = .next (s.latched .uninitializedRegister 4 cmd))

/-- As `ResolvesTo`, for a mode that reads an index register too. -/
def ResolvesIndexedTo (i : Instr) (cmd : Command) (index : RegFile → RegCell Byte) (ea : State → Word → Byte → Nat) :
    Prop :=
  encode i = cmd ∧ ∀ s : State, s.running →
    (∀ pc idx, s.regs.pc = .val pc → index s.regs = .val idx →
      ∃ v : Word, v.toNat = ea s pc idx ∧ exec i s = .next (s.answered v)) ∧
    (s.regs.pc = .unset ∨ index s.regs = .unset → exec i s = .next (s.latched .uninitializedRegister 4 cmd))

/-- The word `cmd` raises IllegalCommand (code 3) in `s` and has no other effect (R47, R92, R95). -/
def RaisesIllegal (s : State) (cmd : Command) : Prop := transact cmd s = .next (s.latched .illegalCommand 3 cmd)

/-! ### Which fault a command word raises -/

/-- The cell holds no value (R19). -/
def RegCell.isUnset {α : Type} : RegCell α → Bool
  | .unset => true
  | .val _ => false

/-- The cell of register code `reg` is `Unset` (R46). -/
def RegFile.codeUnset (r : RegFile) (reg : Nat) : Bool :=
  if reg = 0 then r.pc.isUnset
  else if reg = 1 then r.s.isUnset
  else if reg = 2 then r.a.isUnset
  else if reg = 3 then r.x.isUnset
  else if reg = 4 then r.y.isUnset
  else r.p.isUnset

/-- A register that a legal command word reads is `Unset` (R55, R57, R93): PC in every mode but Implicit, X in modes 1, 4
and 10, Y in modes 2, 5 and 11, the named register of REG_READ. -/
def readsUnset (cmd : Command) (r : RegFile) : Bool :=
  let op := Command.bits cmd 0 3
  let mode := Command.bits cmd 3 4
  (op = 3 && mode ≠ 8 &&
      (r.pc.isUnset
        || ((mode = 1 || mode = 4 || mode = 10) && r.x.isUnset)
        || ((mode = 2 || mode = 5 || mode = 11) && r.y.isUnset)))
    || (op = 5 && r.codeUnset (Command.bits cmd 3 3))

/-- The cause a command word raises on a block that is not halted, in R98's order of checks, or `none`. -/
def faultOf (cmd : Command) (r : RegFile) : Option Cause :=
  if Command.illegal cmd then some .illegalCommand
  else if Command.reservedMode cmd then some .reservedMode
  else if Command.bits cmd 0 3 = 3 ∧ Command.bits cmd 3 4 = 8 then some .invalidModeForResolution
  else if readsUnset cmd r then some .uninitializedRegister
  else none

/-! ### The invariant -/

/-- The invariant of the block, in states reached from any state that has it:
* memory is in canonical form, so that it holds exactly the 65536 bytes of R20; that an unlisted address reads as 0x00,
  and so is not listed, is the model's choice (log 1);
* a latch that is set is explained by its command word and the registers, which the fault left as they were ("Everything
  else about the fault can be recomputed from the unchanged state and the command word", R89), and the response carries
  its cause (R95);
* while the latch is clear, the latest response is a success. For the response to a command this is R49 and R95; after a
  reset from a halted block it holds only because the model's reset drops the failed response (DESIGN CHOICE, log 3). -/
structure State.Inv (s : State) : Prop where
  memWf : s.mem.wf
  latchExplained : ∀ record, s.fault = some record →
    faultOf record.cmd s.regs = some record.cause ∧ s.resp = some { status := record.cause.code, value := 0 }
  clearMeansSuccess : s.fault = none → ∀ r, s.resp = some r → r.status = 0

end Sys2Proof.Machine
end

