-- ==== Sys2Proof/Certificates/Slice0/Obligations.lean ====
section
/-! DEFINITION. The statements for the provers. Addresses and results are said as numbers or as reads of single bytes,
not through the operand functions of the machine. `s.answered v` and `s.latched cause code cmd` (Sys2Proof/Safety.lean)
are the whole next state: what they do not name is unchanged, which is each statement's frame. -/

open Sys2Proof Sys2Proof.Machine

/-! ### Encoding -/

/-- A few command words written out from the tables of R41 to R46 decode to what they stand for; two words of the
reserved space are refused by name. -/
def Obligations.DecodeOfWordsFromTheSpec : Prop :=
  decode 0x12340000 = .ok (.readMem 0x1234) ∧ decode 0xFFFF5A01 = .ok (.writeMem 0xFFFF 0x5A) ∧
  decode 0x00FF0002 = .ok (.readWord 0x00FF) ∧ decode 0x0000000B = .ok .resolveAbsx ∧
  decode 0x00000053 = .ok .resolveIzx ∧ decode 0x80000004 = .ok (.regWritePc 0x8000) ∧
  decode 0x00FD000C = .ok (.regWriteS 0xFD) ∧ decode 0x0000002D = .ok .regReadP ∧
  decode 0x01000014 = .error .illegalCommand ∧ decode 0x00000063 = .error .reservedMode

/-- No operand bit is dropped: every command is read back from its word. -/
def Obligations.DecodeOfEncodeIsTheCommand : Prop := ∀ i : Instr, decode (encode i) = .ok i

/-- Every command has exactly one word: a word that decodes is the encoding of what it decodes to. -/
def Obligations.EncodeOfDecodeIsTheWord : Prop := ∀ (w : Command) (i : Instr), decode w = .ok i → encode i = w

/-- The decoder refuses exactly the illegal words of R47 and the reserved modes of R48, each under its name. -/
def Obligations.DecoderRefusesExactlyTheReservedSpace : Prop :=
  ∀ w : Command,
    (decode w = .error .illegalCommand ↔ Command.illegal w = true) ∧
    (decode w = .error .reservedMode ↔ Command.reservedMode w = true) ∧
    ((∃ i, decode w = .ok i) ↔ Command.wellFormed w = true)

/-- The rows of the opcode table and the decoder agree: a word decodes to a command of a row exactly if it passes the
row's mask and match. -/
def Obligations.OpcodeRowsDecideTheCommand : Prop :=
  ∀ (w : Command) (i : Instr), i.row.matches w = true ↔ ∃ j, decode w = .ok j ∧ j.row = i.row

/-! ### Memory accessors -/

/-- READ_MEM answers the byte, zero-extended; a word of op 0 with a bit of cmd[15:3] set is illegal. -/
def Obligations.ReadMemAnswersTheByte : Prop :=
  ∀ (s : State) (a : Word), s.running →
    (encode (.readMem a)).toNat = a.toNat * 65536 ∧
    (∃ v : Word, v.toNat = (s.mem.read a).toNat ∧ exec (.readMem a) s = .next (s.answered v)) ∧
    ∀ w, Command.bits w 0 3 = 0 → Command.bits w 3 13 ≠ 0 → RaisesIllegal s w

/-- WRITE_MEM stores the byte at `a` and at no other address, and answers 0x0000; a word of op 1 with a bit of cmd[7:3]
set is illegal. The premise `s.mem.wf` is the memory part of the invariant that every step keeps. -/
def Obligations.WriteMemStoresTheByte : Prop :=
  ∀ (s : State) (a : Word) (d : Byte), s.running →
    (encode (.writeMem a d)).toNat = a.toNat * 65536 + d.toNat * 256 + 1 ∧
    (∃ m : Memory, exec (.writeMem a d) s = .next { s.answered 0 with mem := m } ∧
      (s.mem.wf → m.wf ∧ m.read a = d ∧ ∀ b, b ≠ a → m.read b = s.mem.read b)) ∧
    ∀ w, Command.bits w 0 3 = 1 → Command.bits w 3 5 ≠ 0 → RaisesIllegal s w

/-- READ_WORD answers the little-endian word, its high byte at `a + 1` modulo 65536, whatever the parameters of R8; a
word of op 2 with a bit of cmd[15:3] set is illegal. -/
def Obligations.ReadWordAnswersTheLittleEndianWord : Prop :=
  ∀ (s : State) (a : Word), s.running →
    (encode (.readWord a)).toNat = a.toNat * 65536 + 2 ∧
    (∃ v : Word, v.toNat = 256 * (s.mem.read (a + 1)).toNat + (s.mem.read a).toNat ∧
      exec (.readWord a) s = .next (s.answered v)) ∧
    ∀ w, Command.bits w 0 3 = 2 → Command.bits w 3 13 ≠ 0 → RaisesIllegal s w

/-- A byte written is the byte read back, as often as it is read; no other byte changes, and a read changes nothing but
the response. -/
def Obligations.WriteThenReadReturnsTheByte : Prop :=
  ∀ (s : State) (a : Word) (v : Byte), s.running → s.mem.wf →
    ∃ t u w : State,
      exec (.writeMem a v) s = .next t ∧ (∀ b, b ≠ a → t.mem.read b = s.mem.read b) ∧
      exec (.readMem a) t = .next u ∧ u.resp = some { status := 0, value := v.setWidth 16 } ∧ u = { t with resp := u.resp } ∧
      exec (.readMem a) u = .next w ∧ w = u

/-- There is no word write: WRITE_MEM changes the one byte at its address, and no other command changes memory.
WRITE_WORD is two WRITE_MEM; either order gives the same final state, which reads back as the word, every other byte and
every register unchanged. -/
def Obligations.WordIsStoredByTwoByteWritesInEitherOrder : Prop :=
  (∀ (s t : State) (a : Word) (d : Byte), s.mem.wf → exec (.writeMem a d) s = .next t →
    t.mem = s.mem.write a d ∧ t.mem.read a = d ∧ ∀ b, b ≠ a → t.mem.read b = s.mem.read b) ∧
  (∀ (i : Instr) (s t : State), (∀ a d, i ≠ .writeMem a d) → exec i s = .next t → t.mem = s.mem) ∧
  ∀ (s : State) (a w : Word), s.running → s.mem.wf →
    ∃ t : State,
      runAll (expandWriteWord a w) s = .next t ∧ runAll (expandWriteWord a w).reverse s = .next t ∧
      (t.mem.read a).toNat = w.toNat % 256 ∧ (t.mem.read (a + 1)).toNat = w.toNat / 256 ∧
      (∀ b, b ≠ a → b ≠ a + 1 → t.mem.read b = s.mem.read b) ∧ t.regs = s.regs

/-! ### RESOLVE -/

/-- Absolute: the operand word. -/
def Obligations.ResolveAbsoluteIsTheOperandWord : Prop :=
  ResolvesTo .resolveAbs 0x00000003 fun s pc => operandWord s pc

/-- AbsoluteX: the operand word plus X, modulo 65536. -/
def Obligations.ResolveAbsoluteXAddsXModulo65536 : Prop :=
  ResolvesIndexedTo .resolveAbsx 0x0000000B (·.x) fun s pc x => (operandWord s pc + x.toNat) % 65536

/-- AbsoluteY: the operand word plus Y, modulo 65536. -/
def Obligations.ResolveAbsoluteYAddsYModulo65536 : Prop :=
  ResolvesIndexedTo .resolveAbsy 0x00000013 (·.y) fun s pc y => (operandWord s pc + y.toNat) % 65536

/-- ZeroPage: the operand byte, zero-extended. -/
def Obligations.ResolveZeroPageIsTheOperandByte : Prop :=
  ResolvesTo .resolveZp 0x0000001B fun s pc => (operandByte s pc).toNat

/-- ZeroPageX: the operand byte plus X, modulo 256. -/
def Obligations.ResolveZeroPageXAddsXModulo256 : Prop :=
  ResolvesIndexedTo .resolveZpx 0x00000023 (·.x) fun s pc x => ((operandByte s pc).toNat + x.toNat) % 256

/-- ZeroPageY: the operand byte plus Y, modulo 256. -/
def Obligations.ResolveZeroPageYAddsYModulo256 : Prop :=
  ResolvesIndexedTo .resolveZpy 0x0000002B (·.y) fun s pc y => ((operandByte s pc).toNat + y.toNat) % 256

/-- Immediate: the address PC+1 itself, modulo 65536. -/
def Obligations.ResolveImmediateIsTheOperandAddress : Prop :=
  ResolvesTo .resolveImm 0x00000033 fun _ pc => (pc.toNat + 1) % 65536

/-- Relative: PC+1 plus the signed operand byte, modulo 65536. -/
def Obligations.ResolveRelativeAddsTheSignedByte : Prop :=
  ResolvesTo .resolveRel 0x0000003B fun s pc => (((pc.toNat : Int) + 1 + (operandByte s pc).toInt) % 65536).toNat

/-- Implicit: always InvalidModeForResolution, whatever the registers and memory hold; then no command has a step. -/
def Obligations.ResolveImplicitRaisesInvalidMode : Prop :=
  encode .resolveImp = 0x00000043 ∧ ∀ s : State, s.running →
    exec .resolveImp s = .next (s.latched .invalidModeForResolution 1 0x00000043) ∧
    ∀ w, transact w (s.latched .invalidModeForResolution 1 0x00000043) =
      .fault (.halted { cause := .invalidModeForResolution, cmd := 0x00000043 })

/-- Indirect: the word at the pointer that is the operand word, with the page wrap of IND_PAGE_WRAP. -/
def Obligations.ResolveIndirectReadsTheWordAtThePointer : Prop :=
  ResolvesTo .resolveInd 0x0000004B fun s pc => indirectWord s (BitVec.ofNat 16 (operandWord s pc))

/-- IndexedIndirect: the zero-page pointer at the operand byte plus X, modulo 256. -/
def Obligations.ResolveIndexedIndirectIndexesBeforeThePointer : Prop :=
  ResolvesIndexedTo .resolveIzx 0x00000053 (·.x) fun s pc x => zpPointer s (((operandByte s pc).toNat + x.toNat) % 256)

/-- IndirectIndexed: the zero-page pointer at the operand byte, plus Y modulo 65536. -/
def Obligations.ResolveIndirectIndexedIndexesAfterThePointer : Prop :=
  ResolvesIndexedTo .resolveIzy 0x0000005B (·.y) fun s pc y =>
    (zpPointer s (operandByte s pc).toNat + y.toNat) % 65536

/-- Only AbsoluteX, ZeroPageX and IndexedIndirect read X, and only AbsoluteY, ZeroPageY and IndirectIndexed read Y: in
every other mode any value of the register, `Unset` included, gives the same outcome. A mode that reads an `Unset` index
register takes UninitializedRegister. -/
def Obligations.IndexRegistersAreReadByTheirModesOnly : Prop :=
  ∀ (i : Instr) (s : State), i ∈ addressModes → s.running →
    (i ∉ xModes → ∀ (x : RegCell Byte) (t : State), exec i s = .next t →
      exec i { s with regs := { s.regs with x := x } } = .next { t with regs := { t.regs with x := x } }) ∧
    (i ∉ yModes → ∀ (y : RegCell Byte) (t : State), exec i s = .next t →
      exec i { s with regs := { s.regs with y := y } } = .next { t with regs := { t.regs with y := y } }) ∧
    (i ∈ xModes → s.regs.x = .unset → exec i s = .next (s.latched .uninitializedRegister 4 (encode i))) ∧
    (i ∈ yModes → s.regs.y = .unset → exec i s = .next (s.latched .uninitializedRegister 4 (encode i)))

/-- Resolution is a function of PC, the index registers, the bytes of memory and the parameters of R8: two blocks that
agree on these give the same response, whatever their S, A, P, earlier responses and pending inputs. -/
def Obligations.ResolveDependsOnItsInputsOnly : Prop :=
  ∀ (i : Instr) (s s' : State), i ∈ addressModes → s.running → s'.running →
    s.regs.pc = s'.regs.pc → s.regs.x = s'.regs.x → s.regs.y = s'.regs.y → s.config = s'.config →
    (∀ a, s.mem.read a = s'.mem.read a) →
    ∃ t t' : State, exec i s = .next t ∧ exec i s' = .next t' ∧ t.resp = t'.resp ∧ t.fault = t'.fault

/-- The parameters of R8 are read by three modes only, and matter there only at a page's last byte: for Indirect when the
pointer's low byte is 0xFF, for the zero-page pointers when the pointer address is 0xFF. -/
def Obligations.ParametersMatterOnlyAtThePageEnd : Prop :=
  ∀ (i : Instr) (s t : State) (c : Config), exec i s = .next t →
    (i ∉ [.resolveInd, .resolveIzx, .resolveIzy] ∨
      (∃ pc, s.regs.pc = .val pc ∧ i ≠ .resolveIzx ∧ (operandByte s pc).toNat ≠ 255) ∨
      (∃ pc x, s.regs.pc = .val pc ∧ s.regs.x = .val x ∧ i = .resolveIzx ∧
        ((operandByte s pc).toNat + x.toNat) % 256 ≠ 255)) →
    exec i { s with config := c } = .next { t with config := c }

/-- Each command sees what the ones before it wrote: an operand byte, an index register, a pointer byte. -/
def Obligations.ResolveSeesEarlierWritesAtOnce : Prop :=
  ∀ (s : State) (pc : Word) (d : Byte), s.running → s.mem.wf → s.regs.pc = .val pc →
    (∃ t, runAll [.writeMem (pc + 1) d, .resolveZp] s = .next t ∧
      t.resp = some { status := 0, value := d.setWidth 16 }) ∧
    (∃ (t : State) (v : Word), runAll [.regWriteX d, .resolveZpx] s = .next t ∧
      t.resp = some { status := 0, value := v } ∧ v.toNat = ((operandByte s pc).toNat + d.toNat) % 256) ∧
    (∀ ptr : Word, ptr.toNat = operandWord s pc → ptr ≠ pc + 1 → ptr ≠ pc + 2 →
      ∃ (t : State) (v : Word), runAll [.writeMem ptr d, .resolveInd] s = .next t ∧
        t.resp = some { status := 0, value := v } ∧ v.toNat % 256 = d.toNat) ∧
    (∀ (x : Byte) (zp : Word), s.regs.x = .val x → zp.toNat = ((operandByte s pc).toNat + x.toNat) % 256 →
      zp ≠ pc + 1 → ∃ (t : State) (v : Word), runAll [.writeMem zp d, .resolveIzx] s = .next t ∧
        t.resp = some { status := 0, value := v } ∧ v.toNat % 256 = d.toNat) ∧
    (∀ (y : Byte) (zp : Word), s.regs.y = .val y → zp.toNat = (operandByte s pc).toNat → zp ≠ pc + 1 →
      ∃ (t : State) (v : Word), runAll [.writeMem zp d, .resolveIzy] s = .next t ∧
        t.resp = some { status := 0, value := v } ∧ v.toNat % 256 = (d.toNat + y.toNat) % 256)

/-! ### Register port -/

/-- REG_WRITE.PC writes PC and nothing else, for every u16; it is the only command that changes PC. -/
def Obligations.RegWritePcIsTheOnlyWayPcChanges : Prop :=
  ∀ s : State, s.running →
    (∀ v : Word, (encode (.regWritePc v)).toNat = v.toNat * 65536 + 4 ∧
      exec (.regWritePc v) s = .next { s.answered 0 with regs := { s.regs with pc := .val v } }) ∧
    (∀ w, Command.bits w 0 3 = 4 → Command.bits w 3 3 = 0 → Command.bits w 6 10 ≠ 0 → RaisesIllegal s w) ∧
    ∀ (i : Instr) (t : State), exec i s = .next t → t.regs.pc ≠ s.regs.pc → ∃ v, i = .regWritePc v

/-- REG_WRITE to S, A, X, Y or P stores the byte whole in that register and changes no other; a value that does not fit
in a byte, or a reserved bit, makes the word illegal. -/
def Obligations.RegWriteStoresTheByteInItsRegister : Prop :=
  ∀ s : State, s.running →
    (∀ v : Byte,
      (encode (.regWriteS v)).toNat = v.toNat * 65536 + 0x0C ∧
      exec (.regWriteS v) s = .next { s.answered 0 with regs := { s.regs with s := .val v } } ∧
      (encode (.regWriteA v)).toNat = v.toNat * 65536 + 0x14 ∧
      exec (.regWriteA v) s = .next { s.answered 0 with regs := { s.regs with a := .val v } } ∧
      (encode (.regWriteX v)).toNat = v.toNat * 65536 + 0x1C ∧
      exec (.regWriteX v) s = .next { s.answered 0 with regs := { s.regs with x := .val v } } ∧
      (encode (.regWriteY v)).toNat = v.toNat * 65536 + 0x24 ∧
      exec (.regWriteY v) s = .next { s.answered 0 with regs := { s.regs with y := .val v } } ∧
      (encode (.regWriteP v)).toNat = v.toNat * 65536 + 0x2C ∧
      exec (.regWriteP v) s = .next { s.answered 0 with regs := { s.regs with p := .val v } }) ∧
    ∀ w, Command.bits w 0 3 = 4 → 1 ≤ Command.bits w 3 3 → Command.bits w 3 3 ≤ 5 →
      Command.bits w 6 10 ≠ 0 ∨ Command.bits w 24 8 ≠ 0 → RaisesIllegal s w

/-- REG_READ.PC answers PC, or takes UninitializedRegister; a reserved bit makes the word illegal; a RESOLVE in between
does not change what it answers. -/
def Obligations.RegReadPcAnswersPc : Prop :=
  encode .regReadPc = 0x00000005 ∧ ∀ s : State, s.running →
    (∀ v, s.regs.pc = .val v → exec .regReadPc s = .next (s.answered v) ∧
      ∀ (i : Instr) (t : State), i ∈ addressModes → exec i s = .next t → t.running →
        exec .regReadPc t = .next (t.answered v)) ∧
    (s.regs.pc = .unset → exec .regReadPc s = .next (s.latched .uninitializedRegister 4 0x00000005)) ∧
    ∀ w, Command.bits w 0 3 = 5 → Command.bits w 3 3 = 0 → Command.bits w 6 26 ≠ 0 → RaisesIllegal s w

/-- REG_READ of S, A, X, Y or P answers the byte zero-extended, or takes UninitializedRegister; a reserved bit makes the
word illegal. -/
def Obligations.RegReadAnswersTheByteOfItsRegister : Prop :=
  encode .regReadS = 0x0000000D ∧ encode .regReadA = 0x00000015 ∧ encode .regReadX = 0x0000001D ∧
  encode .regReadY = 0x00000025 ∧ encode .regReadP = 0x0000002D ∧
  ∀ s : State, s.running →
    (∀ (v : Byte) (r : Word), r.toNat = v.toNat →
      (s.regs.s = .val v → exec .regReadS s = .next (s.answered r)) ∧
      (s.regs.a = .val v → exec .regReadA s = .next (s.answered r)) ∧
      (s.regs.x = .val v → exec .regReadX s = .next (s.answered r)) ∧
      (s.regs.y = .val v → exec .regReadY s = .next (s.answered r)) ∧
      (s.regs.p = .val v → exec .regReadP s = .next (s.answered r))) ∧
    (s.regs.s = .unset → exec .regReadS s = .next (s.latched .uninitializedRegister 4 0x0000000D)) ∧
    (s.regs.a = .unset → exec .regReadA s = .next (s.latched .uninitializedRegister 4 0x00000015)) ∧
    (s.regs.x = .unset → exec .regReadX s = .next (s.latched .uninitializedRegister 4 0x0000001D)) ∧
    (s.regs.y = .unset → exec .regReadY s = .next (s.latched .uninitializedRegister 4 0x00000025)) ∧
    (s.regs.p = .unset → exec .regReadP s = .next (s.latched .uninitializedRegister 4 0x0000002D)) ∧
    ∀ w, Command.bits w 0 3 = 5 → 1 ≤ Command.bits w 3 3 → Command.bits w 3 3 ≤ 5 → Command.bits w 6 26 ≠ 0 →
      RaisesIllegal s w

/-- S, A and P have no meaning to the block: their values change no outcome of any command but the REG_READ that names
them. -/
def Obligations.OpaqueRegistersChangeNoOutcome : Prop :=
  ∀ (i : Instr) (st t : State) (s a p : RegCell Byte), i ∉ [.regReadS, .regReadA, .regReadP] → exec i st = .next t →
    ∃ t' : State, exec i { st with regs := { st.regs with s := s, a := a, p := p } } = .next t' ∧
      t'.resp = t.resp ∧ t'.fault = t.fault ∧ t'.mem = t.mem ∧
      t'.regs.pc = t.regs.pc ∧ t'.regs.x = t.regs.x ∧ t'.regs.y = t.regs.y

/-! ### Frames over all commands -/

/-- Who writes what: each register changes by its own REG_WRITE only, memory by WRITE_MEM only; no command touches the
parameters or the host's later inputs; a command that faults changes no register and no memory. The access matrix is the
spec's own inference (R23, "derived"); the parameters and pending inputs are the model's fields (logs 2, 4). -/
def Obligations.AccessMatrixOfAllCommands : Prop :=
  ∀ (i : Instr) (s t : State), exec i s = .next t →
    (t.regs.pc = s.regs.pc ∨ ∃ v, i = .regWritePc v ∧ t.regs.pc = .val v) ∧
    (t.regs.s = s.regs.s ∨ ∃ v, i = .regWriteS v ∧ t.regs.s = .val v) ∧
    (t.regs.a = s.regs.a ∨ ∃ v, i = .regWriteA v ∧ t.regs.a = .val v) ∧
    (t.regs.x = s.regs.x ∨ ∃ v, i = .regWriteX v ∧ t.regs.x = .val v) ∧
    (t.regs.y = s.regs.y ∨ ∃ v, i = .regWriteY v ∧ t.regs.y = .val v) ∧
    (t.regs.p = s.regs.p ∨ ∃ v, i = .regWriteP v ∧ t.regs.p = .val v) ∧
    (t.mem = s.mem ∨ ∃ a d, i = .writeMem a d ∧ t.mem = s.mem.write a d) ∧
    t.config = s.config ∧ t.pending = s.pending ∧
    (t.fault ≠ none → t.regs = s.regs ∧ t.mem = s.mem)

/-- A register that has been written never becomes `Unset` again but by a reset. The step takes its input from the
model's field `pending` (log 4). -/
def Obligations.OnlyResetMakesARegisterUnset : Prop :=
  ∀ s t : State, step s = .next t → (∀ image rest, s.pending ≠ .reset image :: rest) →
    (s.regs.pc ≠ .unset → t.regs.pc ≠ .unset) ∧ (s.regs.s ≠ .unset → t.regs.s ≠ .unset) ∧
    (s.regs.a ≠ .unset → t.regs.a ≠ .unset) ∧ (s.regs.x ≠ .unset → t.regs.x ≠ .unset) ∧
    (s.regs.y ≠ .unset → t.regs.y ≠ .unset) ∧ (s.regs.p ≠ .unset → t.regs.p ≠ .unset)

/-! ### Faults -/

/-- Every word that R47 calls illegal raises IllegalCommand and has no other effect, and no other word raises it; the
fault is fatal: no command has a step after it. -/
def Obligations.IllegalWordsRaiseIllegalCommand : Prop :=
  ∀ (s : State) (w : Command), s.running →
    (Command.illegal w = true → RaisesIllegal s w ∧
      ∀ w', transact w' (s.latched .illegalCommand 3 w) = .fault (.halted { cause := .illegalCommand, cmd := w })) ∧
    (Command.illegal w = false → ∀ t, transact w s = .next t → t.fault ≠ some { cause := .illegalCommand, cmd := w })

/-- RESOLVE with mode 12 to 15 raises ReservedMode whatever the registers and memory hold, and is fatal. -/
def Obligations.ReservedModesRaiseReservedMode : Prop :=
  ∀ (s : State) (w : Command), s.running → w ∈ [0x00000063#32, 0x0000006B#32, 0x00000073#32, 0x0000007B#32] →
    transact w s = .next (s.latched .reservedMode 2 w) ∧
    ∀ w', transact w' (s.latched .reservedMode 2 w) = .fault (.halted { cause := .reservedMode, cmd := w })

/-- Fault entry: when a command word faults, the latch records the cause and the word, the response is the cause's code
with value 0x0000, and no register, memory byte or anything else changes. -/
def Obligations.FaultEntryChangesNothingElse : Prop :=
  ∀ (s t : State) (w : Command) (record : FaultRecord), s.running → transact w s = .next t → t.fault = some record →
    record.cmd = w ∧ t = s.latched record.cause record.cause.code w

/-- Halt: while the latch is set no command word has a step. -/
def Obligations.HaltedBlockAcceptsNoCommand : Prop :=
  ∀ (s : State) (record : FaultRecord) (w : Command), s.fault = some record → transact w s = .fault (.halted record)

/-- The order of checks decides the one cause reported: a block that is not halted always answers, its latch is then
exactly what R98's list gives for the word and the registers, and with no fault the response is a success. -/
def Obligations.FirstFailingCheckDecidesTheCause : Prop :=
  ∀ (s : State) (w : Command),
    (∀ record, s.fault = some record → transact w s = .fault (.halted record)) ∧
    (s.running → ∃ t : State, transact w s = .next t ∧
      (∀ cause, faultOf w s.regs = some cause →
        t.fault = some { cause := cause, cmd := w } ∧ t.resp = some { status := cause.code, value := 0 }) ∧
      (faultOf w s.regs = none → t.fault = none ∧ ∃ v, t.resp = some { status := 0, value := v }))

/-- OutOfRangeAccess is unreachable: no command word puts it in the latch. -/
def Obligations.OutOfRangeAccessIsUnreachable : Prop :=
  ∀ (s t : State) (w cmd : Command), s.running → transact w s = .next t →
    t.fault ≠ some { cause := .outOfRangeAccess, cmd := cmd }

/-! ### Reset -/

/-- A step that takes a reset, in any state, a halted one included, loads the whole image, makes every register `Unset`
and clears the latch; the parameters of R8 stay, the later inputs are left, and the next state is `hostReset`'s. Every
65536-byte image `f` can be the reset's image. That a reset stands in `pending` is the model's choice (log 4), that no
response is left is log 3, and the form of the image is log 1. -/
def Obligations.ResetLoadsTheImageAndUnsetsTheRegisters : Prop :=
  (∀ (s : State) (image : Image) (rest : List HostInput), s.pending = .reset image :: rest →
    ∃ t : State, step s = .next t ∧ (∀ a, t.mem.read a = image.byteAt a) ∧
      t.regs.pc = .unset ∧ t.regs.s = .unset ∧ t.regs.a = .unset ∧ t.regs.x = .unset ∧ t.regs.y = .unset ∧
      t.regs.p = .unset ∧ t.fault = none ∧ t.config = s.config ∧ t.pending = rest ∧ t.resp = none ∧
      t = hostReset image { s with pending := rest }) ∧
  ∀ f : Word → Byte, ∃ image : Image, ∀ a, image.byteAt a = f a

/-- A halted block has a step exactly for a reset that the host sends next, and that reset clears the latch. The inputs
are the model's field `pending` (logs 4, 7). -/
def Obligations.OnlyResetLeavesAFault : Prop :=
  ∀ (s : State) (record : FaultRecord), s.fault = some record →
    (∀ image rest, s.pending = .reset image :: rest → ∃ t : State, step s = .next t ∧ t.running) ∧
    (∀ t, step s = .next t → ∃ image rest, s.pending = .reset image :: rest ∧ t.running ∧ t.pending = rest)

/-- Boot: after a reset the memory accessors work, every REG_READ and every RESOLVE that computes an address faults until
its registers are written. With PC written the modes without an index succeed; a mode that reads X needs X too, and Y
does not stand in for it; the same for Y. -/
def Obligations.BootNeedsPcAndTheIndexRegisters : Prop :=
  ∀ (image : Image) (s : State) (pc : Word) (x y : Byte),
    let succeeds (is : List Instr) : Prop := ∃ (t : State) (v : Word),
      runAll is (hostReset image s) = .next t ∧ t.running ∧ t.resp = some { status := 0, value := v }
    let faultsAt (is : List Instr) (i : Instr) : Prop := ∃ t : State,
      runAll is (hostReset image s) = .next t ∧ t.fault = some { cause := .uninitializedRegister, cmd := encode i } ∧
        t.resp = some { status := 4, value := 0 }
    (∀ (a : Word) (d : Byte), succeeds [.readMem a] ∧ succeeds [.writeMem a d] ∧ succeeds [.readWord a]) ∧
    (∀ i ∈ [Instr.regReadPc, .regReadS, .regReadA, .regReadX, .regReadY, .regReadP], faultsAt [i] i) ∧
    ∀ i ∈ addressModes,
      faultsAt [i] i ∧ faultsAt [.regWriteX x, .regWriteY y, i] i ∧
      (i ∉ xModes → i ∉ yModes → succeeds [.regWritePc pc, i]) ∧
      (i ∈ xModes → succeeds [.regWritePc pc, .regWriteX x, i] ∧ faultsAt [.regWritePc pc, .regWriteY y, i] i) ∧
      (i ∈ yModes → succeeds [.regWritePc pc, .regWriteY y, i] ∧ faultsAt [.regWritePc pc, .regWriteX x, i] i)

/-! ### Steps -/

/-- A step runs the decoded command on the state whose pending inputs are the ones after it, faults on a word that names
no command, and waits when nothing is pending; a placed word is the next one to run. The pending inputs, the wait and
`withFetchWord` are the model's (logs 4, 6, 8). -/
def Obligations.StepRunsTheDecodedCommand : Prop :=
  (∀ (s : State) (w : Command) (rest : List HostInput) (i : Instr),
    s.pending = .command w :: rest → decode w = .ok i → step s = exec i { s with pending := rest }) ∧
  (∀ (s : State) (w : Command) (rest : List HostInput), s.running → s.pending = .command w :: rest →
    (decode w = .error .illegalCommand → step s = .next ({ s with pending := rest }.latched .illegalCommand 3 w)) ∧
    (decode w = .error .reservedMode → step s = .next ({ s with pending := rest }.latched .reservedMode 2 w))) ∧
  (∀ s : State, s.running → s.pending = [] → step s = .next s) ∧
  ∀ (s : State) (nbits n : Nat) (i : Instr), decodeTableWord nbits n = some i →
    step (s.withFetchWord nbits n) = exec i s

/-- Every step keeps the parameters of R8 and takes the host's inputs one at a time, in the host's order. -/
def Obligations.StepTakesInputsInOrderAndKeepsTheParameters : Prop :=
  ∀ s t : State, step s = .next t → t.config = s.config ∧ t.pending = s.pending.tail

/-- The state after reset has the invariant, its latch clear, every register `Unset`, and R8's default parameters. That
every byte reads 0x00 and memory lists nothing is the model's choice of image (log 1), and that no response stands at the
port, on which the invariant's last part rests here, is the model's too (log 3). -/
def Obligations.ResetStateHasTheInvariant : Prop :=
  State.reset.Inv ∧ State.reset.running ∧ State.reset.regs = ⟨.unset, .unset, .unset, .unset, .unset, .unset⟩ ∧
  State.reset.config = { indPageWrap := false, zpPtrWrap := false } ∧ State.reset.resp = none ∧
  State.reset.mem.cells = [] ∧ ∀ a, State.reset.mem.read a = 0

/-- Every step keeps the invariant, from any state that has it: memory stays canonical, a set latch stays explained by
its word and the unchanged registers, and while it is clear the latest response is a success. The canonical form rests on
the model's choice of what an unlisted address reads as (log 1). That the latest response is a success after a reset from
a halted block rests on the model's choice that a reset drops the earlier response (log 3), not on R49. -/
def Obligations.StepKeepsTheInvariant : Prop := ∀ s t : State, s.Inv → step s = .next t → t.Inv

/-- The 19-bit response: status in bits 18:16, value in bits 15:0. -/
def Obligations.ResponsePacksStatusAboveValue : Prop :=
  ∀ r : Response, r.packed.toNat = r.status.toNat * 65536 + r.value.toNat
end

