-- ==== Sys2Proof/Laws/Encoding.lean ====
section
/-! SUPPORT. The fields of the three formats as numbers, what each field of a built word is, and how a word is put
together again from its fields. -/

namespace Sys2Proof

/-! ### A field as a number, in the form R47's checks use -/

theorem toNat_extract (cmd : Command) (lo len : Nat) : (cmd.extractLsb' lo len).toNat = Command.bits cmd lo len := by
  simp [Command.bits, Nat.shiftRight_eq_div_pow]

theorem extract_eq_zero_iff (cmd : Command) (lo len : Nat) :
    cmd.extractLsb' lo len = 0#len ↔ Command.bits cmd lo len = 0 := by
  rw [← toNat_extract, ← BitVec.toNat_inj, BitVec.toNat_ofNat, Nat.zero_mod]

theorem opField_toNat (cmd : Command) : (opField cmd).toNat = Command.bits cmd 0 3 := toNat_extract cmd 0 3
theorem modeField_toNat (cmd : Command) : (modeField cmd).toNat = Command.bits cmd 3 4 := toNat_extract cmd 3 4
theorem regField_toNat (cmd : Command) : (regField cmd).toNat = Command.bits cmd 3 3 := toNat_extract cmd 3 3
theorem spareFieldM_eq_zero (cmd : Command) : spareFieldM cmd = 0 ↔ Command.bits cmd 3 5 = 0 :=
  extract_eq_zero_iff cmd 3 5
theorem dataField_eq_zero (cmd : Command) : dataField cmd = 0 ↔ Command.bits cmd 8 8 = 0 :=
  extract_eq_zero_iff cmd 8 8
theorem spareFieldR_eq_zero (cmd : Command) : spareFieldR cmd = 0 ↔ Command.bits cmd 7 25 = 0 :=
  extract_eq_zero_iff cmd 7 25
theorem spareFieldG_eq_zero (cmd : Command) : spareFieldG cmd = 0 ↔ Command.bits cmd 6 10 = 0 :=
  extract_eq_zero_iff cmd 6 10
theorem wordValueField_eq_zero (cmd : Command) : wordValueField cmd = 0 ↔ Command.bits cmd 16 16 = 0 :=
  extract_eq_zero_iff cmd 16 16
theorem byteValueSpareField_eq_zero (cmd : Command) : byteValueSpareField cmd = 0 ↔ Command.bits cmd 24 8 = 0 :=
  extract_eq_zero_iff cmd 24 8

/-! ### Built words as numbers -/

theorem toNat_append_eq {m n : Nat} (x : BitVec m) (y : BitVec n) : (x ++ y).toNat = x.toNat * 2 ^ n + y.toNat := by
  rw [BitVec.toNat_append, ← Nat.shiftLeft_add_eq_or_of_lt y.isLt, Nat.shiftLeft_eq]

theorem formatM_toNat (addr : Word) (data : Byte) (op : BitVec 3) :
    (formatM addr data op).toNat = addr.toNat * 65536 + data.toNat * 256 + op.toNat := by
  have : (formatM addr data op).toNat = (addr ++ data ++ 0#5 ++ op).toNat := rfl
  rw [this]; simp only [toNat_append_eq, BitVec.toNat_ofNat]; omega

theorem formatR_toNat (mode : BitVec 4) : (formatR mode).toNat = mode.toNat * 8 + 3 := by
  have : (formatR mode).toNat = (0#25 ++ mode ++ 3#3).toNat := rfl
  rw [this]; simp only [toNat_append_eq, BitVec.toNat_ofNat]; omega

theorem formatG_toNat (value : Word) (reg op : BitVec 3) :
    (formatG value reg op).toNat = value.toNat * 65536 + reg.toNat * 8 + op.toNat := by
  have : (formatG value reg op).toNat = (value ++ 0#10 ++ reg ++ op).toNat := rfl
  rw [this]; simp only [toNat_append_eq, BitVec.toNat_ofNat]; omega

theorem formatByteWrite_toNat (value : Byte) (reg : BitVec 3) :
    (formatByteWrite value reg).toNat = value.toNat * 65536 + reg.toNat * 8 + 4 := by
  have : (0#8 ++ value : Word).toNat = value.toNat := by
    have : (0#8 ++ value : Word).toNat = (0#8 ++ value : BitVec (8 + 8)).toNat := rfl
    rw [this]; simp only [toNat_append_eq, BitVec.toNat_ofNat]; omega
  rw [formatByteWrite, formatG_toNat, this]; rfl

/-! ### Fields of a built word -/

section
variable (addr value : Word) (data : Byte) (op reg : BitVec 3) (mode : BitVec 4)

@[simp] theorem opField_formatM : opField (formatM addr data op) = op := by
  apply BitVec.eq_of_toNat_eq
  rw [opField_toNat, Command.bits, formatM_toNat]; omega

@[simp] theorem spareFieldM_formatM : spareFieldM (formatM addr data op) = 0 := by
  rw [spareFieldM_eq_zero, Command.bits, formatM_toNat]; omega

@[simp] theorem dataField_formatM : dataField (formatM addr data op) = data := by
  apply BitVec.eq_of_toNat_eq
  rw [dataField, toNat_extract, Command.bits, formatM_toNat]; omega

@[simp] theorem addrField_formatM : addrField (formatM addr data op) = addr := by
  apply BitVec.eq_of_toNat_eq
  rw [addrField, toNat_extract, Command.bits, formatM_toNat]; omega

@[simp] theorem opField_formatR : opField (formatR mode) = 3 := by
  apply BitVec.eq_of_toNat_eq
  rw [opField_toNat, Command.bits, formatR_toNat]; simp

@[simp] theorem spareFieldR_formatR : spareFieldR (formatR mode) = 0 := by
  rw [spareFieldR_eq_zero, Command.bits, formatR_toNat]; omega

@[simp] theorem modeField_formatR : modeField (formatR mode) = mode := by
  apply BitVec.eq_of_toNat_eq
  rw [modeField_toNat, Command.bits, formatR_toNat]; omega

@[simp] theorem opField_formatG : opField (formatG value reg op) = op := by
  apply BitVec.eq_of_toNat_eq
  rw [opField_toNat, Command.bits, formatG_toNat]; omega

@[simp] theorem spareFieldG_formatG : spareFieldG (formatG value reg op) = 0 := by
  rw [spareFieldG_eq_zero, Command.bits, formatG_toNat]; omega

@[simp] theorem regField_formatG : regField (formatG value reg op) = reg := by
  apply BitVec.eq_of_toNat_eq
  rw [regField_toNat, Command.bits, formatG_toNat]; omega

@[simp] theorem wordValueField_formatG : wordValueField (formatG value reg op) = value := by
  apply BitVec.eq_of_toNat_eq
  rw [wordValueField, toNat_extract, Command.bits, formatG_toNat]; omega

@[simp] theorem opField_formatByteWrite : opField (formatByteWrite data reg) = 4 := opField_formatG _ _ _

@[simp] theorem spareFieldG_formatByteWrite : spareFieldG (formatByteWrite data reg) = 0 := spareFieldG_formatG _ _ _

@[simp] theorem regField_formatByteWrite : regField (formatByteWrite data reg) = reg := regField_formatG _ _ _

@[simp] theorem byteValueSpareField_formatByteWrite : byteValueSpareField (formatByteWrite data reg) = 0 := by
  rw [byteValueSpareField_eq_zero, Command.bits, formatByteWrite_toNat]; omega

@[simp] theorem byteValueField_formatByteWrite : byteValueField (formatByteWrite data reg) = data := by
  apply BitVec.eq_of_toNat_eq
  rw [byteValueField, toNat_extract, Command.bits, formatByteWrite_toNat]; omega

end

/-! ### A word put together again from its fields -/

theorem formatM_of_fields {cmd : Command} (h : spareFieldM cmd = 0) :
    formatM (addrField cmd) (dataField cmd) (opField cmd) = cmd := by
  rw [spareFieldM_eq_zero] at h
  apply BitVec.eq_of_toNat_eq
  have := cmd.isLt
  simp only [formatM_toNat, addrField, dataField, opField, toNat_extract]
  simp only [Command.bits] at h ⊢
  omega

theorem formatR_of_fields {cmd : Command} (hop : opField cmd = 3) (h : spareFieldR cmd = 0) :
    formatR (modeField cmd) = cmd := by
  rw [spareFieldR_eq_zero] at h
  have hop : (opField cmd).toNat = 3 := by rw [hop]; rfl
  apply BitVec.eq_of_toNat_eq
  have := cmd.isLt
  simp only [opField, toNat_extract] at hop
  simp only [formatR_toNat, modeField, toNat_extract]
  simp only [Command.bits] at h hop ⊢
  omega

theorem formatG_of_fields {cmd : Command} (h : spareFieldG cmd = 0) :
    formatG (wordValueField cmd) (regField cmd) (opField cmd) = cmd := by
  rw [spareFieldG_eq_zero] at h
  apply BitVec.eq_of_toNat_eq
  have := cmd.isLt
  simp only [formatG_toNat, wordValueField, regField, opField, toNat_extract]
  simp only [Command.bits] at h ⊢
  omega

theorem formatByteWrite_of_fields {cmd : Command} (hop : opField cmd = 4) (h : spareFieldG cmd = 0)
    (hv : byteValueSpareField cmd = 0) : formatByteWrite (byteValueField cmd) (regField cmd) = cmd := by
  rw [spareFieldG_eq_zero] at h
  rw [byteValueSpareField_eq_zero] at hv
  have hop : (opField cmd).toNat = 4 := by rw [hop]; rfl
  apply BitVec.eq_of_toNat_eq
  have := cmd.isLt
  simp only [opField, toNat_extract] at hop
  simp only [formatByteWrite_toNat, byteValueField, regField, toNat_extract]
  simp only [Command.bits] at h hop hv ⊢
  omega

end Sys2Proof
end

