-- ==== Sys2Proof/Laws/State.lean ====
section
/-! SUPPORT. One lemma per field per update of the state, each true by rfl, so that no later proof unfolds a record
update. -/

namespace Sys2Proof.Machine

variable (st : State)

@[simp] theorem respond_regs (v : Word) : (respond v st).regs = st.regs := rfl
@[simp] theorem respond_mem (v : Word) : (respond v st).mem = st.mem := rfl
@[simp] theorem respond_fault (v : Word) : (respond v st).fault = st.fault := rfl
@[simp] theorem respond_resp (v : Word) : (respond v st).resp = some (Response.success v) := rfl
@[simp] theorem respond_pending (v : Word) : (respond v st).pending = st.pending := rfl
@[simp] theorem respond_config (v : Word) : (respond v st).config = st.config := rfl

@[simp] theorem storeByte_regs (a : Word) (v : Byte) : (storeByte a v st).regs = st.regs := rfl
@[simp] theorem storeByte_mem (a : Word) (v : Byte) : (storeByte a v st).mem = st.mem.write a v := rfl
@[simp] theorem storeByte_fault (a : Word) (v : Byte) : (storeByte a v st).fault = st.fault := rfl
@[simp] theorem storeByte_resp (a : Word) (v : Byte) : (storeByte a v st).resp = st.resp := rfl
@[simp] theorem storeByte_pending (a : Word) (v : Byte) : (storeByte a v st).pending = st.pending := rfl
@[simp] theorem storeByte_config (a : Word) (v : Byte) : (storeByte a v st).config = st.config := rfl

@[simp] theorem setPc_regs_pc (v : Word) : (setPc v st).regs.pc = .val v := rfl
@[simp] theorem setPc_regs_s (v : Word) : (setPc v st).regs.s = st.regs.s := rfl
@[simp] theorem setPc_regs_a (v : Word) : (setPc v st).regs.a = st.regs.a := rfl
@[simp] theorem setPc_regs_x (v : Word) : (setPc v st).regs.x = st.regs.x := rfl
@[simp] theorem setPc_regs_y (v : Word) : (setPc v st).regs.y = st.regs.y := rfl
@[simp] theorem setPc_regs_p (v : Word) : (setPc v st).regs.p = st.regs.p := rfl
@[simp] theorem setPc_mem (v : Word) : (setPc v st).mem = st.mem := rfl
@[simp] theorem setPc_fault (v : Word) : (setPc v st).fault = st.fault := rfl
@[simp] theorem setPc_resp (v : Word) : (setPc v st).resp = st.resp := rfl
@[simp] theorem setPc_pending (v : Word) : (setPc v st).pending = st.pending := rfl
@[simp] theorem setPc_config (v : Word) : (setPc v st).config = st.config := rfl

@[simp] theorem setS_regs_pc (v : Byte) : (setS v st).regs.pc = st.regs.pc := rfl
@[simp] theorem setS_regs_s (v : Byte) : (setS v st).regs.s = .val v := rfl
@[simp] theorem setS_regs_a (v : Byte) : (setS v st).regs.a = st.regs.a := rfl
@[simp] theorem setS_regs_x (v : Byte) : (setS v st).regs.x = st.regs.x := rfl
@[simp] theorem setS_regs_y (v : Byte) : (setS v st).regs.y = st.regs.y := rfl
@[simp] theorem setS_regs_p (v : Byte) : (setS v st).regs.p = st.regs.p := rfl
@[simp] theorem setS_mem (v : Byte) : (setS v st).mem = st.mem := rfl
@[simp] theorem setS_fault (v : Byte) : (setS v st).fault = st.fault := rfl
@[simp] theorem setS_resp (v : Byte) : (setS v st).resp = st.resp := rfl
@[simp] theorem setS_pending (v : Byte) : (setS v st).pending = st.pending := rfl
@[simp] theorem setS_config (v : Byte) : (setS v st).config = st.config := rfl

@[simp] theorem setA_regs_pc (v : Byte) : (setA v st).regs.pc = st.regs.pc := rfl
@[simp] theorem setA_regs_s (v : Byte) : (setA v st).regs.s = st.regs.s := rfl
@[simp] theorem setA_regs_a (v : Byte) : (setA v st).regs.a = .val v := rfl
@[simp] theorem setA_regs_x (v : Byte) : (setA v st).regs.x = st.regs.x := rfl
@[simp] theorem setA_regs_y (v : Byte) : (setA v st).regs.y = st.regs.y := rfl
@[simp] theorem setA_regs_p (v : Byte) : (setA v st).regs.p = st.regs.p := rfl
@[simp] theorem setA_mem (v : Byte) : (setA v st).mem = st.mem := rfl
@[simp] theorem setA_fault (v : Byte) : (setA v st).fault = st.fault := rfl
@[simp] theorem setA_resp (v : Byte) : (setA v st).resp = st.resp := rfl
@[simp] theorem setA_pending (v : Byte) : (setA v st).pending = st.pending := rfl
@[simp] theorem setA_config (v : Byte) : (setA v st).config = st.config := rfl

@[simp] theorem setX_regs_pc (v : Byte) : (setX v st).regs.pc = st.regs.pc := rfl
@[simp] theorem setX_regs_s (v : Byte) : (setX v st).regs.s = st.regs.s := rfl
@[simp] theorem setX_regs_a (v : Byte) : (setX v st).regs.a = st.regs.a := rfl
@[simp] theorem setX_regs_x (v : Byte) : (setX v st).regs.x = .val v := rfl
@[simp] theorem setX_regs_y (v : Byte) : (setX v st).regs.y = st.regs.y := rfl
@[simp] theorem setX_regs_p (v : Byte) : (setX v st).regs.p = st.regs.p := rfl
@[simp] theorem setX_mem (v : Byte) : (setX v st).mem = st.mem := rfl
@[simp] theorem setX_fault (v : Byte) : (setX v st).fault = st.fault := rfl
@[simp] theorem setX_resp (v : Byte) : (setX v st).resp = st.resp := rfl
@[simp] theorem setX_pending (v : Byte) : (setX v st).pending = st.pending := rfl
@[simp] theorem setX_config (v : Byte) : (setX v st).config = st.config := rfl

@[simp] theorem setY_regs_pc (v : Byte) : (setY v st).regs.pc = st.regs.pc := rfl
@[simp] theorem setY_regs_s (v : Byte) : (setY v st).regs.s = st.regs.s := rfl
@[simp] theorem setY_regs_a (v : Byte) : (setY v st).regs.a = st.regs.a := rfl
@[simp] theorem setY_regs_x (v : Byte) : (setY v st).regs.x = st.regs.x := rfl
@[simp] theorem setY_regs_y (v : Byte) : (setY v st).regs.y = .val v := rfl
@[simp] theorem setY_regs_p (v : Byte) : (setY v st).regs.p = st.regs.p := rfl
@[simp] theorem setY_mem (v : Byte) : (setY v st).mem = st.mem := rfl
@[simp] theorem setY_fault (v : Byte) : (setY v st).fault = st.fault := rfl
@[simp] theorem setY_resp (v : Byte) : (setY v st).resp = st.resp := rfl
@[simp] theorem setY_pending (v : Byte) : (setY v st).pending = st.pending := rfl
@[simp] theorem setY_config (v : Byte) : (setY v st).config = st.config := rfl

@[simp] theorem setP_regs_pc (v : Byte) : (setP v st).regs.pc = st.regs.pc := rfl
@[simp] theorem setP_regs_s (v : Byte) : (setP v st).regs.s = st.regs.s := rfl
@[simp] theorem setP_regs_a (v : Byte) : (setP v st).regs.a = st.regs.a := rfl
@[simp] theorem setP_regs_x (v : Byte) : (setP v st).regs.x = st.regs.x := rfl
@[simp] theorem setP_regs_y (v : Byte) : (setP v st).regs.y = st.regs.y := rfl
@[simp] theorem setP_regs_p (v : Byte) : (setP v st).regs.p = .val v := rfl
@[simp] theorem setP_mem (v : Byte) : (setP v st).mem = st.mem := rfl
@[simp] theorem setP_fault (v : Byte) : (setP v st).fault = st.fault := rfl
@[simp] theorem setP_resp (v : Byte) : (setP v st).resp = st.resp := rfl
@[simp] theorem setP_pending (v : Byte) : (setP v st).pending = st.pending := rfl
@[simp] theorem setP_config (v : Byte) : (setP v st).config = st.config := rfl

@[simp] theorem setPending_regs (rest : List HostInput) : (setPending rest st).regs = st.regs := rfl
@[simp] theorem setPending_mem (rest : List HostInput) : (setPending rest st).mem = st.mem := rfl
@[simp] theorem setPending_fault (rest : List HostInput) : (setPending rest st).fault = st.fault := rfl
@[simp] theorem setPending_resp (rest : List HostInput) : (setPending rest st).resp = st.resp := rfl
@[simp] theorem setPending_pending (rest : List HostInput) : (setPending rest st).pending = rest := rfl
@[simp] theorem setPending_config (rest : List HostInput) : (setPending rest st).config = st.config := rfl

@[simp] theorem enterFault_regs (cause : Cause) (cmd : Command) : (enterFault cause cmd st).regs = st.regs := rfl
@[simp] theorem enterFault_mem (cause : Cause) (cmd : Command) : (enterFault cause cmd st).mem = st.mem := rfl
@[simp] theorem enterFault_fault (cause : Cause) (cmd : Command) : (enterFault cause cmd st).fault = some { cause := cause, cmd := cmd } := rfl
@[simp] theorem enterFault_resp (cause : Cause) (cmd : Command) : (enterFault cause cmd st).resp = some (Response.failure cause) := rfl
@[simp] theorem enterFault_pending (cause : Cause) (cmd : Command) : (enterFault cause cmd st).pending = st.pending := rfl
@[simp] theorem enterFault_config (cause : Cause) (cmd : Command) : (enterFault cause cmd st).config = st.config := rfl

@[simp] theorem hostReset_regs (image : Image) : (hostReset image st).regs = RegFile.unwritten := rfl
@[simp] theorem hostReset_mem (image : Image) : (hostReset image st).mem = Memory.ofImage image := rfl
@[simp] theorem hostReset_fault (image : Image) : (hostReset image st).fault = none := rfl
@[simp] theorem hostReset_resp (image : Image) : (hostReset image st).resp = none := rfl
@[simp] theorem hostReset_pending (image : Image) : (hostReset image st).pending = st.pending := rfl
@[simp] theorem hostReset_config (image : Image) : (hostReset image st).config = st.config := rfl

end Sys2Proof.Machine
end

