-- ==== Sys2Proof/Laws/Ops.lean ====
section
/-! SUPPORT. For each shared operation, once, everything it can do: when it answers a next state, and which. -/

namespace Sys2Proof.Machine

variable {st t : State} {cmd : Command} {act : Result}

theorem whileRunning_of_running (h : st.fault = none) : whileRunning st act = act := by simp [whileRunning, h]

theorem whileRunning_of_halted {record : FaultRecord} (h : st.fault = some record) :
    whileRunning st act = .fault (.halted record) := by simp [whileRunning, h]

/-- R98's first check passes exactly when the latch is clear. -/
theorem whileRunning_eq_next : whileRunning st act = .next t ↔ st.fault = none ∧ act = .next t := by
  cases h : st.fault with
  | none => simp [whileRunning, h]
  | some record => simp [whileRunning, h]

theorem raise_eq_next {cause : Cause} : raise cause cmd st = .next t ↔ t = enterFault cause cmd st := by
  simp [raise, eq_comm]

@[simp] theorem readCell_val {α : Type} (v : α) (use : α → Result) : readCell (.val v) cmd st use = use v := rfl

@[simp] theorem readCell_unset {α : Type} (use : α → Result) :
    readCell .unset cmd st use = raise .uninitializedRegister cmd st := rfl

/-- A cell read gives its value on, or takes UninitializedRegister (R93). -/
theorem readCell_eq_next {α : Type} {cell : RegCell α} {use : α → Result} :
    readCell cell cmd st use = .next t ↔
      (cell = .unset ∧ t = enterFault .uninitializedRegister cmd st) ∨ ∃ v, cell = .val v ∧ use v = .next t := by
  cases cell <;> simp [raise_eq_next]

/-- REG_WRITE answers 0x0000 with the one cell written (R76). -/
theorem writePort_eq_next {update : State → State} :
    writePort update st = .next t ↔ st.fault = none ∧ t = respond 0 (update st) := by
  rw [writePort, whileRunning_eq_next, Host.Outcome.next.injEq, eq_comm (a := t)]

/-- REG_READ takes UninitializedRegister or answers the register (R76). -/
theorem readPort_eq_next {α : Type} {cell : RegCell α} {toWord : α → Word} :
    readPort cmd cell toWord st = .next t ↔ st.fault = none ∧
      ((cell = .unset ∧ t = enterFault .uninitializedRegister cmd st) ∨
        ∃ v, cell = .val v ∧ t = respond (toWord v) st) := by
  simp only [readPort, whileRunning_eq_next, readCell_eq_next, Host.Outcome.next.injEq, eq_comm (a := t)]

end Sys2Proof.Machine
end

