-- ==== Sys2Proof/Laws/Operands.lean ====
section
/-! SUPPORT. R10's primitives and the operand forms as numbers, and what the shared RESOLVE operations can do. -/

namespace Sys2Proof.Machine

/-! ### R10's primitives as numbers -/

theorem add8_toNat (a b : Byte) : (add8 a b).toNat = (a.toNat + b.toNat) % 256 := BitVec.toNat_add a b

theorem add16_toNat (a b : Word) : (add16 a b).toNat = (a.toNat + b.toNat) % 65536 := BitVec.toNat_add a b

theorem zext16_toNat (v : Byte) : (zext16 v).toNat = v.toNat := by
  have := v.isLt
  simp only [zext16, BitVec.toNat_setWidth]; omega

/-- R10's two cases of `sext_16`. -/
theorem sext16_toNat (v : Byte) : (sext16 v).toNat = if v.toNat < 0x80 then v.toNat else v.toNat + 0xFF00 := by
  revert v; decide

theorem sext16_toInt (v : Byte) : (sext16 v).toInt = v.toInt := BitVec.toInt_signExtend_of_le (by omega)

theorem concatBytes_toNat (hi lo : Byte) : (concatBytes hi lo).toNat = hi.toNat * 256 + lo.toNat := by
  have : (concatBytes hi lo).toNat = (hi ++ lo : BitVec (8 + 8)).toNat := rfl
  rw [this, BitVec.toNat_append, ← Nat.shiftLeft_add_eq_or_of_lt lo.isLt, Nat.shiftLeft_eq]

/-- R9's formula for `hi:lo`. -/
theorem concatBytes_eq_or (hi lo : Byte) : concatBytes hi lo = (zext16 hi <<< 8) ||| zext16 lo := by
  apply BitVec.eq_of_toNat_eq
  have hlo := lo.isLt
  have hhi := hi.isLt
  rw [concatBytes_toNat, BitVec.toNat_or, BitVec.toNat_shiftLeft, zext16_toNat, zext16_toNat, Nat.shiftLeft_eq,
    Nat.mod_eq_of_lt (by omega), ← Nat.shiftLeft_eq, ← Nat.shiftLeft_add_eq_or_of_lt hlo, Nat.shiftLeft_eq]

theorem readWord_toNat (m : Memory) (a : Word) :
    (m.readWord a).toNat = (m.read (add16 a 1)).toNat * 256 + (m.read a).toNat := concatBytes_toNat _ _

theorem zpWord_toNat (cfg : Config) (m : Memory) (zp : Byte) :
    (zpWord cfg m zp).toNat = (m.read (zpHighAddress cfg zp)).toNat * 256 + (m.read (zext16 zp)).toNat :=
  concatBytes_toNat _ _

theorem eaIndirect_toNat (cfg : Config) (m : Memory) (opnd : Word) :
    (eaIndirect cfg m opnd).toNat =
      (m.read (indirectHighAddress cfg (m.readWord opnd))).toNat * 256 + (m.read (m.readWord opnd)).toNat :=
  concatBytes_toNat _ _

/-- A word read depends on two bytes of memory only (R12). -/
theorem readWord_congr {m₁ m₂ : Memory} (h : ∀ a, m₁.read a = m₂.read a) (a : Word) : m₁.readWord a = m₂.readWord a := by
  simp [Memory.readWord, h]

/-! ### The shared RESOLVE operations -/

variable {st t : State} {cmd : Command}

theorem resolveWith_of_val {ea : Word → Word} {pc : Word} (hf : st.fault = none) (hpc : st.regs.pc = .val pc) :
    resolveWith cmd ea st = .next (respond (ea (operandAddress pc)) st) := by
  simp [resolveWith, whileRunning_of_running hf, hpc]

theorem resolveIndexedWith_of_val {index : RegCell Byte} {ea : Word → Byte → Word} {pc : Word} {idx : Byte}
    (hf : st.fault = none) (hpc : st.regs.pc = .val pc) (hi : index = .val idx) :
    resolveIndexedWith cmd index ea st = .next (respond (ea (operandAddress pc) idx) st) := by
  simp [resolveIndexedWith, whileRunning_of_running hf, hpc, hi]

/-- RESOLVE in a mode without an index takes UninitializedRegister or answers an address (R55). -/
theorem resolveWith_eq_next {ea : Word → Word} :
    resolveWith cmd ea st = .next t ↔ st.fault = none ∧
      ((st.regs.pc = .unset ∧ t = enterFault .uninitializedRegister cmd st) ∨
        ∃ pc, st.regs.pc = .val pc ∧ t = respond (ea (operandAddress pc)) st) := by
  simp only [resolveWith, whileRunning_eq_next, readCell_eq_next, Host.Outcome.next.injEq, eq_comm (a := t)]

/-- RESOLVE in an indexed mode takes UninitializedRegister, for PC or for the index, or answers an address (R55). -/
theorem resolveIndexedWith_eq_next {index : RegCell Byte} {ea : Word → Byte → Word} :
    resolveIndexedWith cmd index ea st = .next t ↔ st.fault = none ∧
      (((st.regs.pc = .unset ∨ index = .unset) ∧ t = enterFault .uninitializedRegister cmd st) ∨
        ∃ pc idx, st.regs.pc = .val pc ∧ index = .val idx ∧ t = respond (ea (operandAddress pc) idx) st) := by
  cases hpc : st.regs.pc <;> cases index <;>
    simp [resolveIndexedWith, whileRunning_eq_next, hpc, raise_eq_next, eq_comm (a := t)]

end Sys2Proof.Machine
end

