-- ==== Sys2Proof/Laws/Exec.lean ====
section
/-! SUPPORT. What a command, a transaction and an input can do, said once: the halt, the fault entry, or a response after
the one write the command makes. -/

namespace Sys2Proof.Machine

variable {s t : State} {i : Instr} {cmd : Command}

/-- The write a command makes when it succeeds (R23): one byte, one register, or nothing. -/
def writeEffect : Instr → State → State
  | .writeMem addr data => storeByte addr data
  | .regWritePc v => setPc v
  | .regWriteS v => setS v
  | .regWriteA v => setA v
  | .regWriteX v => setX v
  | .regWriteY v => setY v
  | .regWriteP v => setP v
  | _ => id

/-- While the latch is set no command has a step (R96). -/
theorem exec_of_halted {record : FaultRecord} (h : s.fault = some record) : exec i s = .fault (.halted record) := by
  cases i <;> exact whileRunning_of_halted h

/-- A command that steps faults with a cause of its own, or responds after its write (R95, R49). -/
theorem exec_next_cases (h : exec i s = .next t) :
    s.fault = none ∧
      ((∃ cause, (cause = .invalidModeForResolution ∨ cause = .uninitializedRegister) ∧
          t = enterFault cause (encode i) s) ∨
        ∃ v, t = respond v (writeEffect i s)) := by
  cases i <;>
    simp only [exec, execReadMem, execWriteMem, execReadWord, execResolveAbs, execResolveAbsx, execResolveAbsy,
      execResolveZp, execResolveZpx, execResolveZpy, execResolveImm, execResolveRel, execResolveImp, execResolveInd,
      execResolveIzx, execResolveIzy, execRegWritePc, execRegWriteS, execRegWriteA, execRegWriteX, execRegWriteY,
      execRegWriteP, execRegReadPc, execRegReadS, execRegReadA, execRegReadX, execRegReadY, execRegReadP, writePort_eq_next,
      readPort_eq_next, whileRunning_eq_next, resolveWith_eq_next, resolveIndexedWith_eq_next, raise_eq_next,
      Host.Outcome.next.injEq, writeEffect, id] at h ⊢ <;>
    obtain ⟨hf, h⟩ := h <;>
    refine ⟨hf, ?_⟩
  case resolveImp => exact .inl ⟨_, .inl rfl, h⟩
  case readMem | writeMem | readWord => exact .inr ⟨_, h.symm⟩
  case regWritePc | regWriteS | regWriteA | regWriteX | regWriteY | regWriteP => exact .inr ⟨_, h⟩
  case regReadPc | regReadS | regReadA | regReadX | regReadY | regReadP =>
    obtain ⟨-, rfl⟩ | ⟨v, -, rfl⟩ := h
    · exact .inl ⟨_, .inr rfl, rfl⟩
    · exact .inr ⟨_, rfl⟩
  case resolveAbs | resolveZp | resolveImm | resolveRel | resolveInd =>
    obtain ⟨-, rfl⟩ | ⟨pc, -, rfl⟩ := h
    · exact .inl ⟨_, .inr rfl, rfl⟩
    · exact .inr ⟨_, rfl⟩
  all_goals
    obtain ⟨-, rfl⟩ | ⟨pc, idx, -, -, rfl⟩ := h
    · exact .inl ⟨_, .inr rfl, rfl⟩
    · exact .inr ⟨_, rfl⟩

/-- A transaction on a halted block has no step, whatever the word (R96, R98). -/
theorem transact_of_halted {record : FaultRecord} (h : s.fault = some record) :
    transact cmd s = .fault (.halted record) := by
  cases hd : decode cmd with
  | ok i => simp [transact, hd, exec_of_halted h]
  | error e => simp [transact, hd, whileRunning_of_halted h]

/-- A transaction that steps runs the decoded command or faults with the decoder's cause (R98). -/
theorem transact_next_cases (h : transact cmd s = .next t) :
    (∃ i, decode cmd = .ok i ∧ exec i s = .next t) ∨
      ∃ e, decode cmd = .error e ∧ s.fault = none ∧ t = enterFault (causeOfDecodeError e) cmd s := by
  cases hd : decode cmd with
  | ok i => exact .inl ⟨i, rfl, by simpa [transact, hd] using h⟩
  | error e =>
    simp only [transact, hd, whileRunning_eq_next, raise_eq_next] at h
    exact .inr ⟨e, rfl, h⟩

/-- What taking the next input can do: wait, one transaction, or a reset. -/
theorem takeInput_next_cases (h : takeInput s = .next t) :
    (s.pending = [] ∧ s.fault = none ∧ t = s) ∨
      (∃ cmd rest, s.pending = .command cmd :: rest ∧ transact cmd (setPending rest s) = .next t) ∨
      ∃ image rest, s.pending = .reset image :: rest ∧ t = hostReset image (setPending rest s) := by
  unfold takeInput at h
  split at h
  · rename_i hp
    rw [whileRunning_eq_next] at h
    exact .inl ⟨hp, h.1, by simpa [eq_comm] using h.2⟩
  · rename_i cmd rest hp
    exact .inr (.inl ⟨cmd, rest, hp, h⟩)
  · rename_i image rest hp
    exact .inr (.inr ⟨image, rest, hp, by simpa [eq_comm] using h⟩)

end Sys2Proof.Machine
end

