-- ==== Sys2Proof/Laws/Memory.lean ====
section
/-! SUPPORT. What memory operations do: read after write, the frame of a write, that every operation keeps the canonical
form, what an image reads as, and that two canonical memories with the same bytes are the same data. -/

namespace Sys2Proof.Machine

/-- The part of `Memory.wf` that orders the cells. -/
abbrev Rising (cells : List Host.Cell) : Prop := cells.Pairwise (fun c d => c.1 < d.1)

/-- An address below every listed one is unlisted. -/
theorem lookupCell_of_below {n : Nat} {cells : List Host.Cell} (h : ∀ c ∈ cells, n < c.1) :
    lookupCell n cells = unlistedByte := by
  cases cells with
  | nil => rfl
  | cons c rest =>
    have hc : n < c.1 := h c (by simp)
    simp [lookupCell, Nat.ne_of_lt hc, hc]

theorem lookupCell_storeCell_same {n : Nat} {b : Byte} {cells : List Host.Cell} (h : Rising cells) :
    lookupCell n (storeCell n b cells) = b := by
  induction cells with
  | nil => by_cases hb : b = unlistedByte <;> simp [storeCell, lookupCell, hb]
  | cons c rest ih =>
    obtain ⟨hc, hrest⟩ := List.pairwise_cons.mp h
    rcases Nat.lt_trichotomy n c.1 with hlt | heq | hgt
    · by_cases hb : b = unlistedByte <;> simp [storeCell, lookupCell, hlt, Nat.ne_of_lt hlt, hb]
    · by_cases hb : b = unlistedByte
      · simpa [storeCell, heq, hb] using lookupCell_of_below hc
      · simp [storeCell, lookupCell, heq, hb]
    · simp [storeCell, lookupCell, Nat.ne_of_gt hgt, Nat.lt_asymm hgt, ih hrest]

theorem lookupCell_storeCell_other {n k : Nat} {b : Byte} {cells : List Host.Cell} (h : Rising cells) (hk : k ≠ n) :
    lookupCell k (storeCell n b cells) = lookupCell k cells := by
  induction cells with
  | nil => by_cases hb : b = unlistedByte <;> simp [storeCell, lookupCell, hb, hk]
  | cons c rest ih =>
    obtain ⟨hc, hrest⟩ := List.pairwise_cons.mp h
    rcases Nat.lt_trichotomy n c.1 with hlt | heq | hgt
    · by_cases hb : b = unlistedByte
      · simp [storeCell, hlt, Nat.ne_of_lt hlt, hb]
      · by_cases hkn : k < n
        · have : k < c.1 := Nat.lt_trans hkn hlt
          simp [storeCell, lookupCell, hlt, Nat.ne_of_lt hlt, hb, hk, hkn, this, Nat.ne_of_lt this]
        · simp [storeCell, lookupCell, hlt, Nat.ne_of_lt hlt, hb, hk, hkn]
    · have hkc : k ≠ c.1 := heq ▸ hk
      by_cases hb : b = unlistedByte
      · by_cases hkn : k < c.1
        · have : lookupCell k rest = unlistedByte :=
            lookupCell_of_below fun d hd => Nat.lt_trans hkn (hc d hd)
          simp [storeCell, lookupCell, heq, hb, hkc, hkn, this]
        · simp [storeCell, lookupCell, heq, hb, hkc, hkn]
      · simp [storeCell, lookupCell, heq, hb, hkc]
    · simp [storeCell, lookupCell, Nat.ne_of_gt hgt, Nat.lt_asymm hgt, ih hrest]

/-- A cell after a store is the stored one or was there before. -/
theorem mem_storeCell {n : Nat} {b : Byte} {cells : List Host.Cell} {c : Host.Cell} (h : c ∈ storeCell n b cells) :
    (c = (n, b) ∧ b ≠ unlistedByte) ∨ c ∈ cells := by
  induction cells with
  | nil =>
    by_cases hb : b = unlistedByte
    · simp [storeCell, hb] at h
    · simp [storeCell, hb] at h
      exact .inl ⟨h, hb⟩
  | cons d rest ih =>
    simp only [storeCell] at h
    split_ifs at h <;> simp only [List.mem_cons] at h ⊢ <;> tauto

theorem storeCell_rising {n : Nat} {b : Byte} {cells : List Host.Cell} (h : Rising cells) :
    Rising (storeCell n b cells) := by
  induction cells with
  | nil => by_cases hb : b = unlistedByte <;> simp [storeCell, hb]
  | cons c rest ih =>
    obtain ⟨hc, hrest⟩ := List.pairwise_cons.mp h
    rcases Nat.lt_trichotomy n c.1 with hlt | heq | hgt
    · by_cases hb : b = unlistedByte
      · simpa [storeCell, hlt, Nat.ne_of_lt hlt, hb] using And.intro hc hrest
      · simp only [storeCell, Nat.ne_of_lt hlt, hlt, hb, if_true, if_false, Rising, List.pairwise_cons, List.mem_cons]
        refine ⟨?_, hc, hrest⟩
        rintro d (rfl | hd)
        · exact hlt
        · exact Nat.lt_trans hlt (hc d hd)
    · by_cases hb : b = unlistedByte
      · simpa [storeCell, heq, hb] using hrest
      · simpa [storeCell, heq, hb] using And.intro hc hrest
    · simp only [storeCell, Nat.ne_of_gt hgt, Nat.lt_asymm hgt, if_false, Rising, List.pairwise_cons]
      refine ⟨fun d hd => ?_, ih hrest⟩
      rcases mem_storeCell hd with ⟨rfl, -⟩ | hd
      · exact hgt
      · exact hc d hd

/-- A write keeps the canonical form. -/
theorem Memory.write_wf {m : Memory} (h : m.wf) (a : Word) (v : Byte) : (m.write a v).wf := by
  refine ⟨storeCell_rising h.1, fun c hc => ?_⟩
  rcases mem_storeCell hc with ⟨rfl, hv⟩ | hc
  · exact ⟨a.isLt, hv⟩
  · exact h.2 c hc

/-- The empty list is canonical. -/
theorem Memory.empty_wf : Memory.wf { cells := [] } := ⟨List.Pairwise.nil, by simp⟩

/-- Memory after reset is canonical. -/
theorem State.reset_mem_wf : State.reset.mem.wf := Memory.empty_wf

/-- The memory of an image is canonical. -/
theorem Memory.ofImage_wf (img : Image) : (Memory.ofImage img).wf := by
  induction img with
  | nil => exact Memory.empty_wf
  | cons c rest ih => exact Memory.write_wf ih c.1 c.2

/-- What a byte reads as after a write (R31). -/
theorem Memory.read_write {m : Memory} (h : m.wf) (a b : Word) (v : Byte) :
    (m.write a v).read b = if b = a then v else m.read b := by
  by_cases hab : b = a
  · subst hab
    simpa [Memory.read, Memory.write] using lookupCell_storeCell_same h.1
  · have : b.toNat ≠ a.toNat := fun hn => hab (BitVec.eq_of_toNat_eq hn)
    simpa [Memory.read, Memory.write, hab] using lookupCell_storeCell_other h.1 this

/-- Every byte of an image's memory is the image's (R104). -/
theorem Memory.read_ofImage (img : Image) (a : Word) : (Memory.ofImage img).read a = img.byteAt a := by
  induction img with
  | nil => rfl
  | cons c rest ih => simp [Memory.ofImage, Memory.read_write (Memory.ofImage_wf rest), Image.byteAt, ih]

/-- In a canonical list the byte at a listed address is the listed one. -/
theorem lookupCell_of_mem {cells : List Host.Cell} (h : Rising cells) {c : Host.Cell} (hc : c ∈ cells) :
    lookupCell c.1 cells = c.2 := by
  induction cells with
  | nil => simp at hc
  | cons d rest ih =>
    obtain ⟨hd, hrest⟩ := List.pairwise_cons.mp h
    rcases List.mem_cons.mp hc with rfl | hc
    · simp [lookupCell]
    · have := hd c hc
      simp [lookupCell, Nat.ne_of_gt this, Nat.lt_asymm this, ih hrest hc]

/-- Rising lists with no fill byte in them that read alike are alike. -/
theorem cells_eq_of_lookup_eq {l₁ l₂ : List Host.Cell} (h₁ : Rising l₁) (h₂ : Rising l₂)
    (n₁ : ∀ c ∈ l₁, c.2 ≠ unlistedByte) (n₂ : ∀ c ∈ l₂, c.2 ≠ unlistedByte)
    (h : ∀ n, (∃ c ∈ l₁ ++ l₂, c.1 = n) → lookupCell n l₁ = lookupCell n l₂) : l₁ = l₂ := by
  induction l₁ generalizing l₂ with
  | nil =>
    cases l₂ with
    | nil => rfl
    | cons d rest =>
      have := h d.1 ⟨d, by simp, rfl⟩
      simp only [lookupCell, if_true] at this
      exact absurd this.symm (n₂ d (by simp))
  | cons c r₁ ih =>
    obtain ⟨hc, hr₁⟩ := List.pairwise_cons.mp h₁
    cases l₂ with
    | nil =>
      have := h c.1 ⟨c, by simp, rfl⟩
      simp only [lookupCell, if_true] at this
      exact absurd this (n₁ c (by simp))
    | cons d r₂ =>
      obtain ⟨hd, hr₂⟩ := List.pairwise_cons.mp h₂
      have hcd := h c.1 ⟨c, by simp, rfl⟩
      have hdc := h d.1 ⟨d, by simp, rfl⟩
      rcases Nat.lt_trichotomy c.1 d.1 with hlt | heq | hgt
      · simp [lookupCell, Nat.ne_of_lt hlt, hlt] at hcd
        exact absurd hcd (n₁ c (by simp))
      · simp [lookupCell, heq] at hcd
        have hcd' : c = d := Prod.ext heq hcd
        subst hcd'
        congr 1
        refine ih hr₁ hr₂ (fun e he => n₁ e (by simp [he])) (fun e he => n₂ e (by simp [he])) ?_
        rintro n ⟨e, he, rfl⟩
        have hlt : c.1 < e.1 := (List.mem_append.mp he).elim (hc e) (hd e)
        have := h e.1 ⟨e, by rcases List.mem_append.mp he with he | he <;> simp [he], rfl⟩
        simpa [lookupCell, Nat.ne_of_gt hlt, Nat.lt_asymm hlt] using this
      · simp [lookupCell, Nat.ne_of_lt hgt, hgt] at hdc
        exact absurd hdc.symm (n₂ d (by simp))

/-- Two canonical memories with the same 65536 bytes are the same data. -/
theorem Memory.ext_of_wf {m₁ m₂ : Memory} (h₁ : m₁.wf) (h₂ : m₂.wf) (h : ∀ a, m₁.read a = m₂.read a) : m₁ = m₂ := by
  have hc : m₁.cells = m₂.cells := by
    refine cells_eq_of_lookup_eq h₁.1 h₂.1 (fun c hc => (h₁.2 c hc).2) (fun c hc => (h₂.2 c hc).2) ?_
    rintro n ⟨c, hc, rfl⟩
    have hlt : c.1 < 65536 := (List.mem_append.mp hc).elim (fun hc => (h₁.2 c hc).1) (fun hc => (h₂.2 c hc).1)
    have := h (BitVec.ofNat 16 c.1)
    simpa [Memory.read, Nat.mod_eq_of_lt hlt] using this
  cases m₁; cases m₂; simpa using hc

/-- The bytes of `f` at the addresses below `n`, as image entries. -/
def imageOfBelow (f : Word → Byte) : Nat → Image
  | 0 => []
  | n + 1 => (BitVec.ofNat 16 n, f (BitVec.ofNat 16 n)) :: imageOfBelow f n

theorem byteAt_imageOfBelow (f : Word → Byte) (a : Word) (n : Nat) (h : a.toNat < n) :
    (imageOfBelow f n).byteAt a = f a := by
  induction n with
  | zero => omega
  | succ n ih =>
    by_cases ha : a = BitVec.ofNat 16 n
    · simp [imageOfBelow, Image.byteAt, ← ha]
    · have : a.toNat ≠ n := fun hn => ha (by rw [← hn]; simp)
      simpa [imageOfBelow, Image.byteAt, ha] using ih (by omega)

/-- Every 65536-byte image is an `Image` (R8, R104). -/
theorem Image.exists_byteAt_eq (f : Word → Byte) : ∃ img : Image, ∀ a, img.byteAt a = f a :=
  ⟨imageOfBelow f 65536, fun a => byteAt_imageOfBelow f a 65536 a.isLt⟩

end Sys2Proof.Machine
end

