-- ==== Sys2Proof/Laws/PerInstr.lean ====
section
/-! SUPPORT. Per command: its encoding lies in its own row of the opcode table and is a legal word of no reserved mode
(R47, R48, and the match and mask of the command's rule). -/

namespace Sys2Proof.Laws.OpcodeRow

/-- The encoding of `i` belongs to the row of `i` and is well-formed. -/
def Statement (i : Instr) : Prop := i.row.matches (encode i) = true ∧ Command.wellFormed (encode i) = true

/-- A row whose mask is the low `k` bits tests the word modulo `2 ^ k`. -/
theorem matches_of_low_mask {cmd pattern mask : Command} (k : Nat) (hm : mask.toNat = 2 ^ k - 1)
    (h : cmd.toNat % 2 ^ k = pattern.toNat) : OpcodeRow.matches ⟨pattern, mask⟩ cmd = true := by
  simp only [OpcodeRow.matches, decide_eq_true_eq]
  apply BitVec.eq_of_toNat_eq
  rw [BitVec.toNat_and, hm, Nat.and_two_pow_sub_one_eq_mod, h]

/-- A format M word is well-formed if its data field is used (op 1) or zero (op 0 and 2). -/
theorem wellFormed_formatM (addr : Word) (data : Byte) {op : BitVec 3} (hop : op.toNat ≤ 2)
    (hd : op.toNat = 1 ∨ data = 0) : Command.wellFormed (formatM addr data op) = true := by
  have h0 : Command.bits (formatM addr data op) 0 3 = op.toNat := by rw [← opField_toNat, opField_formatM]
  have h1 : Command.bits (formatM addr data op) 3 5 = 0 := by rw [← spareFieldM_eq_zero, spareFieldM_formatM]
  have h2 : Command.bits (formatM addr data op) 8 8 = data.toNat := by
    rw [← toNat_extract]; exact congrArg _ (dataField_formatM ..)
  have hop' : op.toNat = 0 ∨ op.toNat = 1 ∨ op.toNat = 2 := by omega
  have hd' : op.toNat = 1 ∨ data.toNat = 0 := hd.imp id (by rintro rfl; rfl)
  simp only [Command.wellFormed, Command.illegal, Command.reservedMode, Command.opReserved, Command.reservedBitSet,
    Command.regReserved, Command.byteValueTooWide, h0, h1, h2]
  rcases hop' with h | h | h <;> simp_all

/-- REG_WRITE.PC takes every value. -/
theorem wellFormed_pcWrite (value : Word) : Command.wellFormed (formatG value 0 4) = true := by
  have h0 : Command.bits (formatG value 0 4) 0 3 = 4 := by rw [← opField_toNat, opField_formatG]; rfl
  have h1 : Command.bits (formatG value 0 4) 6 10 = 0 := by rw [← spareFieldG_eq_zero, spareFieldG_formatG]
  have h2 : Command.bits (formatG value 0 4) 3 3 = 0 := by rw [← regField_toNat, regField_formatG]; rfl
  simp only [Command.wellFormed, Command.illegal, Command.reservedMode, Command.opReserved, Command.reservedBitSet,
    Command.regReserved, Command.byteValueTooWide, h0, h1, h2]
  simp

theorem readMem (addr : Word) : Statement (.readMem addr) :=
  ⟨matches_of_low_mask 16 rfl (by rw [encode, formatM_toNat]; simp), wellFormed_formatM addr 0 (by decide) (.inr rfl)⟩

theorem writeMem (addr : Word) (data : Byte) : Statement (.writeMem addr data) :=
  ⟨matches_of_low_mask 8 rfl (by rw [encode, formatM_toNat]; simp; omega),
    wellFormed_formatM addr data (by decide) (.inl rfl)⟩

theorem readWord (addr : Word) : Statement (.readWord addr) :=
  ⟨matches_of_low_mask 16 rfl (by rw [encode, formatM_toNat]; simp), wellFormed_formatM addr 0 (by decide) (.inr rfl)⟩

theorem resolveAbs : Statement (.resolveAbs) :=
  ⟨by decide, by decide⟩

theorem resolveAbsx : Statement (.resolveAbsx) :=
  ⟨by decide, by decide⟩

theorem resolveAbsy : Statement (.resolveAbsy) :=
  ⟨by decide, by decide⟩

theorem resolveZp : Statement (.resolveZp) :=
  ⟨by decide, by decide⟩

theorem resolveZpx : Statement (.resolveZpx) :=
  ⟨by decide, by decide⟩

theorem resolveZpy : Statement (.resolveZpy) :=
  ⟨by decide, by decide⟩

theorem resolveImm : Statement (.resolveImm) :=
  ⟨by decide, by decide⟩

theorem resolveRel : Statement (.resolveRel) :=
  ⟨by decide, by decide⟩

theorem resolveImp : Statement (.resolveImp) :=
  ⟨by decide, by decide⟩

theorem resolveInd : Statement (.resolveInd) :=
  ⟨by decide, by decide⟩

theorem resolveIzx : Statement (.resolveIzx) :=
  ⟨by decide, by decide⟩

theorem resolveIzy : Statement (.resolveIzy) :=
  ⟨by decide, by decide⟩

theorem regWritePc (value : Word) : Statement (.regWritePc value) :=
  ⟨matches_of_low_mask 16 rfl (by rw [encode, formatG_toNat]; simp), wellFormed_pcWrite value⟩

theorem regWriteS (value : Byte) : Statement (.regWriteS value) :=
  ⟨by revert value; decide, by revert value; decide⟩

theorem regWriteA (value : Byte) : Statement (.regWriteA value) :=
  ⟨by revert value; decide, by revert value; decide⟩

theorem regWriteX (value : Byte) : Statement (.regWriteX value) :=
  ⟨by revert value; decide, by revert value; decide⟩

theorem regWriteY (value : Byte) : Statement (.regWriteY value) :=
  ⟨by revert value; decide, by revert value; decide⟩

theorem regWriteP (value : Byte) : Statement (.regWriteP value) :=
  ⟨by revert value; decide, by revert value; decide⟩

theorem regReadPc : Statement (.regReadPc) :=
  ⟨by decide, by decide⟩

theorem regReadS : Statement (.regReadS) :=
  ⟨by decide, by decide⟩

theorem regReadA : Statement (.regReadA) :=
  ⟨by decide, by decide⟩

theorem regReadX : Statement (.regReadX) :=
  ⟨by decide, by decide⟩

theorem regReadY : Statement (.regReadY) :=
  ⟨by decide, by decide⟩

theorem regReadP : Statement (.regReadP) :=
  ⟨by decide, by decide⟩

end Sys2Proof.Laws.OpcodeRow
end

