-- ==== Sys2Proof/Laws/Step.lean ====
section
/-! SUPPORT. What a step can do, and what a step of a placed command is. -/

namespace Sys2Proof.Machine

variable {s t : State}

/-- A step waits, runs one transaction on the remaining inputs, or resets. -/
theorem step_next_cases (h : step s = .next t) :
    (s.pending = [] ∧ s.fault = none ∧ t = s) ∨
      (∃ cmd rest, s.pending = .command cmd :: rest ∧ transact cmd (setPending rest s) = .next t) ∨
      ∃ image rest, s.pending = .reset image :: rest ∧ t = hostReset image (setPending rest s) :=
  takeInput_next_cases h

theorem step_of_command {cmd : Command} {rest : List HostInput} (h : s.pending = .command cmd :: rest) :
    step s = transact cmd (setPending rest s) := by simp [step, takeInput, h]

theorem step_of_reset {image : Image} {rest : List HostInput} (h : s.pending = .reset image :: rest) :
    step s = .next (hostReset image (setPending rest s)) := by simp [step, takeInput, h]

theorem step_of_no_input (h : s.pending = []) : step s = whileRunning s (.next s) := by simp [step, takeInput, h]

/-- Putting a command in front and taking it again leaves the state as it was. -/
theorem setPending_sendNext (cmd : Command) : setPending s.pending (sendNext cmd s) = s := rfl

theorem step_withFetchWord (nbits w : Nat) : step (s.withFetchWord nbits w) = transact (commandOfTableWord nbits w) s :=
  rfl

end Sys2Proof.Machine
end

