-- ==== Sys2Proof/Tests/Slice0.lean ====
section
/-! SUPPORT. Tests. Expected results are the spec's own vectors (95_test_vectors.md, named in each comment) or words
written out from the tables of 30_encoding.md; then one witness per statement that has hypotheses. -/

namespace Sys2Proof.Tests

open Sys2Proof Sys2Proof.Machine

/-! ### Helpers -/

/-- The next state of an outcome, if there is one. -/
def after : Result → Option State
  | .next t => some t
  | .fault _ => none
  | .refused _ => none

/-- Status and value of the response of an outcome. -/
def answer (r : Result) : Option (BitVec 3 × Word) := (after r).bind fun t => t.resp.map fun p => (p.status, p.value)

/-- A state with these bytes, PC, X and Y, all else as after reset. -/
def st (cells : List Host.Cell) (pc : RegCell Word) (x : RegCell Byte := .unset) (y : RegCell Byte := .unset)
    (cfg : Config := {}) : State :=
  { State.reset with mem := ⟨cells⟩, regs := { RegFile.unwritten with pc := pc, x := x, y := y }, config := cfg }

/-! ### WellFormed refuses, one word per check of R47 and R48 -/

theorem test_wf_refuses_op6 : Command.opReserved 0x00000006 = true ∧ Command.wellFormed 0x00000006 = false := by decide
theorem test_wf_refuses_op7 : Command.opReserved 0x00000007 = true ∧ Command.wellFormed 0x00000007 = false := by decide
/-- V-MEM-10, V-MEM-9, V-MEM-11, V-RSV-3, V-REG-12, V-REG-11. -/
theorem test_wf_refuses_reserved_bits :
    [0x00000009#32, 0x12340100#32, 0x00008002#32, 0x00000083#32, 0x00000044#32, 0x00010005#32].all
      (fun w => Command.reservedBitSet w && !Command.wellFormed w) = true := by decide
/-- V-REG-10. -/
theorem test_wf_refuses_reg6 : Command.regReserved 0x00000034 = true ∧ Command.wellFormed 0x00000034 = false := by decide
/-- V-REG-9. -/
theorem test_wf_refuses_wide_byte : Command.byteValueTooWide 0x01000014 = true ∧ Command.wellFormed 0x01000014 = false := by
  decide
/-- V-RSV-1. -/
theorem test_wf_refuses_mode12 : Command.reservedMode 0x00000063 = true ∧ Command.wellFormed 0x00000063 = false := by decide

/-! ### Decode, every constructor, by words from R52 to R54, R58 to R70, R77 to R88 -/

theorem test_decode_format_M :
    decode 0x12340000 = .ok (.readMem 0x1234) ∧ decode 0xFFFF5A01 = .ok (.writeMem 0xFFFF 0x5A) ∧
    decode 0x00FF0002 = .ok (.readWord 0x00FF) := by decide
theorem test_decode_format_R :
    decode 0x00000003 = .ok .resolveAbs ∧ decode 0x0000000B = .ok .resolveAbsx ∧ decode 0x00000013 = .ok .resolveAbsy ∧
    decode 0x0000001B = .ok .resolveZp ∧ decode 0x00000023 = .ok .resolveZpx ∧ decode 0x0000002B = .ok .resolveZpy ∧
    decode 0x00000033 = .ok .resolveImm ∧ decode 0x0000003B = .ok .resolveRel ∧ decode 0x00000043 = .ok .resolveImp ∧
    decode 0x0000004B = .ok .resolveInd ∧ decode 0x00000053 = .ok .resolveIzx ∧ decode 0x0000005B = .ok .resolveIzy := by
  decide
theorem test_decode_reg_write :
    decode 0x80000004 = .ok (.regWritePc 0x8000) ∧ decode 0x00FD000C = .ok (.regWriteS 0xFD) ∧
    decode 0x00420014 = .ok (.regWriteA 0x42) ∧ decode 0x0004001C = .ok (.regWriteX 0x04) ∧
    decode 0x00100024 = .ok (.regWriteY 0x10) ∧ decode 0x0024002C = .ok (.regWriteP 0x24) := by decide
theorem test_decode_reg_read :
    decode 0x00000005 = .ok .regReadPc ∧ decode 0x0000000D = .ok .regReadS ∧ decode 0x00000015 = .ok .regReadA ∧
    decode 0x0000001D = .ok .regReadX ∧ decode 0x00000025 = .ok .regReadY ∧ decode 0x0000002D = .ok .regReadP := by decide
/-- V-RSV-4: the reserved bit is seen before the mode. -/
theorem test_decode_reserved_bit_before_mode : decode 0x000000C3 = .error .illegalCommand := by decide
/-- V-RSV-2. -/
theorem test_decode_mode15 : decode 0x0000007B = .error .reservedMode := by decide
theorem test_decodeTableWord : decodeTableWord 32 0xFFFF5A01 = some (.writeMem 0xFFFF 0x5A) ∧ decodeTableWord 32 6 = none := by
  decide

/-! ### Memory accessors -/

/-- V-MEM-1. -/
theorem test_readMem : answer (exec (.readMem 0x1234) (st [(0x1234, 0xAB)] .unset)) = some (0, 0x00AB) := by decide
/-- V-MEM-3, V-MEM-8: no page wrap, whatever the parameters. -/
theorem test_readWord_no_page_wrap :
    answer (exec (.readWord 0x00FF) (st [(0x00FF, 1), (0x0100, 2)] .unset (cfg := ⟨true, true⟩))) = some (0, 0x0201) := by
  decide
/-- V-MEM-4. -/
theorem test_readWord_wraps : answer (exec (.readWord 0xFFFF) (st [(0, 0xAB), (0xFFFF, 0xCD)] .unset)) = some (0, 0xABCD) := by
  decide
/-- V-MEM-5, on a memory with a neighbour. -/
theorem test_writeMem :
    (after (exec (.writeMem 0xFFFF 0x5A) (st [(0, 0xAB)] .unset))).map (·.mem.cells) = some [(0, 0xAB), (0xFFFF, 0x5A)] := by
  decide
/-- A written 0x00 leaves the canonical list (R31; log 1). -/
theorem test_writeMem_zero :
    (after (exec (.writeMem 5 0) (st [(4, 1), (5, 2)] .unset))).map (·.mem.cells) = some [(4, 1)] := by decide

/-! ### RESOLVE -/

/-- V-ABS-2. -/
theorem test_abs_wraps : answer (exec .resolveAbs (st [(0, 0x12), (0xFFFF, 0x34)] (.val 0xFFFE))) = some (0, 0x1234) := by decide
/-- V-ABSX-2. -/
theorem test_absx_wraps :
    answer (exec .resolveAbsx (st [(0x8001, 0xFF), (0x8002, 0xFF)] (.val 0x8000) (.val 1))) = some (0, 0x0000) := by decide
/-- V-ABSX-4. -/
theorem test_absx_unset :
    (after (exec .resolveAbsx (st [] (.val 0x8000)))).bind (·.fault) = some ⟨.uninitializedRegister, 0x0000000B⟩ := by decide
/-- V-ABSY-1. -/
theorem test_absy_wraps :
    answer (exec .resolveAbsy (st [(0x8001, 0xF0), (0x8002, 0xFF)] (.val 0x8000) .unset (.val 0x20))) = some (0, 0x0010) := by
  decide
/-- V-ZP-2. -/
theorem test_zp : answer (exec .resolveZp (st [(0x8001, 0xFF)] (.val 0x8000))) = some (0, 0x00FF) := by decide
/-- V-ZPX-1 (W4). -/
theorem test_zpx_wraps : answer (exec .resolveZpx (st [(0x8001, 0xFF)] (.val 0x8000) (.val 2))) = some (0, 0x0001) := by decide
/-- V-ZPY-1. -/
theorem test_zpy_wraps :
    answer (exec .resolveZpy (st [(0x8001, 0xF0)] (.val 0x8000) .unset (.val 0x20))) = some (0, 0x0010) := by decide
/-- V-ZPY-3: a set X does not stand in for an `Unset` Y. -/
theorem test_zpy_unset : answer (exec .resolveZpy (st [(0x8001, 0x10)] (.val 0x8000) (.val 5))) = some (4, 0) := by decide
/-- V-IMM-2. -/
theorem test_imm_wraps : answer (exec .resolveImm (st [] (.val 0xFFFF))) = some (0, 0x0000) := by decide
/-- V-REL-1 (W6): the base is PC+1. -/
theorem test_rel_minus_one : answer (exec .resolveRel (st [(0x8001, 0xFF)] (.val 0x8000))) = some (0, 0x8000) := by decide
/-- V-REL-6. -/
theorem test_rel_wraps_down : answer (exec .resolveRel (st [(0x0001, 0x80)] (.val 0x0000))) = some (0, 0xFF81) := by decide
/-- V-IMP-2: not UninitializedRegister. -/
theorem test_imp :
    (after (exec .resolveImp (st [] .unset))).map (fun t => (t.fault, t.resp)) =
      some (some ⟨.invalidModeForResolution, 0x00000043⟩, some ⟨1, 0⟩) := by decide
/-- V-IND-2, IND_PAGE_WRAP false. -/
theorem test_ind_linear :
    answer (exec .resolveInd (st [(0x0200, 0x56), (0x02FF, 0x34), (0x0300, 0x12), (0x8001, 0xFF), (0x8002, 0x02)] (.val 0x8000)))
      = some (0, 0x1234) := by decide
/-- V-IND-2, IND_PAGE_WRAP true. -/
theorem test_ind_page_wrap :
    answer (exec .resolveInd (st [(0x0200, 0x56), (0x02FF, 0x34), (0x0300, 0x12), (0x8001, 0xFF), (0x8002, 0x02)] (.val 0x8000)
      (cfg := ⟨true, false⟩))) = some (0, 0x5634) := by decide
/-- V-IZX-1 (W7). -/
theorem test_izx :
    answer (exec .resolveIzx (st [(0x0024, 0x34), (0x0025, 0x12), (0x8001, 0x20)] (.val 0x8000) (.val 4))) = some (0, 0x1234) := by
  decide
/-- V-IZX-3, ZP_PTR_WRAP true. -/
theorem test_izx_wrap :
    answer (exec .resolveIzx (st [(0, 0x56), (0x00FF, 0x34), (0x0100, 0x12), (0x8001, 0xFE)] (.val 0x8000) (.val 1)
      (cfg := ⟨false, true⟩))) = some (0, 0x5634) := by decide
/-- V-IZY-3. -/
theorem test_izy_wraps :
    answer (exec .resolveIzy (st [(0x0020, 0xF0), (0x0021, 0xFF), (0x8001, 0x20)] (.val 0x8000) .unset (.val 0x20)))
      = some (0, 0x0010) := by decide
/-- V-IZY-4, ZP_PTR_WRAP false. -/
theorem test_izy_linear :
    answer (exec .resolveIzy (st [(0, 0x40), (0x0100, 0x30), (0x8001, 0xFF)] (.val 0x8000) .unset (.val 5))) = some (0, 0x3005) := by
  decide

/-! ### Register port: each REG_WRITE then its REG_READ (V-REG-1 to V-REG-7) -/

theorem test_pc : answer (runAll [.regWritePc 0xFFFF, .regReadPc] State.reset) = some (0, 0xFFFF) := by decide
theorem test_s : answer (runAll [.regWriteS 0xFD, .regReadS] State.reset) = some (0, 0x00FD) := by decide
theorem test_a : answer (runAll [.regWriteA 0x42, .regReadA] State.reset) = some (0, 0x0042) := by decide
theorem test_x : answer (runAll [.regWriteX 0x04, .regReadX] State.reset) = some (0, 0x0004) := by decide
theorem test_y : answer (runAll [.regWriteY 0x10, .regReadY] State.reset) = some (0, 0x0010) := by decide
theorem test_p : answer (runAll [.regWriteP 0x24, .regReadP] State.reset) = some (0, 0x0024) := by decide
/-- V-REG-8. -/
theorem test_y_unset : (after (exec .regReadY State.reset)).bind (·.fault) = some ⟨.uninitializedRegister, 0x00000025⟩ := by decide

/-! ### Steps, faults, reset -/

/-- V-MEM-10, through a step from reset. -/
theorem test_step_illegal :
    (after (step (State.reset.withFetchWord 32 0x00000009))).map (fun t => (t.fault, t.resp, t.mem)) =
      some (some ⟨.illegalCommand, 0x00000009⟩, some ⟨3, 0⟩, State.reset.mem) := by decide
theorem test_step_runs_from_reset :
    (after (step (State.reset.withFetchWord 32 0xFFFF5A01))).map (fun t => (t.mem.cells, t.pending)) =
      some ([(0xFFFF, 0x5A)], []) := by decide
/-- V-FLT-3: no step while the latch is set. -/
theorem test_halted : after (exec (.readMem 0) { State.reset with fault := some ⟨.illegalCommand, 6⟩ }) = none := by decide
/-- V-FLT-4: a reset in the halted state. -/
theorem test_reset_leaves_halt :
    after (step { State.reset with fault := some ⟨.illegalCommand, 6⟩, pending := [.reset [(0x8000, 0xA1)]] }) =
      some { State.reset with mem := ⟨[(0x8000, 0xA1)]⟩ } := by decide

/-! ### Witnesses: for each statement with hypotheses, a state and operands that meet them all -/

/-- Every register written, a byte of memory, bits set everywhere. -/
def sample : State :=
  { State.reset with
    regs := ⟨.val 0x8000, .val 0xFD, .val 0x42, .val 0x04, .val 0x10, .val 0x24⟩
    mem := ⟨[(0x0024, 0x34), (0x8001, 0x20)]⟩ }

/-- PC written, X and Y not. -/
def noIndex : State := st [] (.val 0x8000)

/-- A block that has faulted. -/
def stopped : State := enterFault .illegalCommand 6 sample

theorem witness_EncodeOfDecodeIsTheWord : decode 0xFFFFFF01 = .ok (.writeMem 0xFFFF 0xFF) := by decide
theorem witness_ReadMemAnswersTheByte :
    sample.running ∧ Command.bits 0xFFFF8000 0 3 = 0 ∧ Command.bits 0xFFFF8000 3 13 ≠ 0 := by decide
theorem witness_WriteMemStoresTheByte :
    sample.running ∧ sample.mem.wf ∧ (0 : Word) ≠ 0xFFFF ∧ Command.bits 0x00000081 0 3 = 1 ∧ Command.bits 0x00000081 3 5 ≠ 0 := by
  decide
theorem witness_ReadWordAnswersTheLittleEndianWord :
    sample.running ∧ Command.bits 0x0000000A 0 3 = 2 ∧ Command.bits 0x0000000A 3 13 ≠ 0 := by decide
theorem witness_WriteThenReadReturnsTheByte : sample.running ∧ sample.mem.wf := by decide
theorem witness_WordIsStoredByTwoByteWritesInEitherOrder :
    sample.running ∧ sample.mem.wf ∧ exec (.writeMem 0xFFFF 1) sample = .next (respond 0 (storeByte 0xFFFF 1 sample)) ∧
    (∀ a d, Instr.regWriteP 0xFF ≠ .writeMem a d) ∧
    exec (.regWriteP 0xFF) sample = .next (respond 0 (setP 0xFF sample)) :=
  ⟨by decide, by decide, rfl, by simp, rfl⟩

/-- What a RESOLVE statement without an index assumes: for its address, and for its fault. -/
abbrev plainHypotheses : Prop :=
  sample.running ∧ sample.regs.pc = .val 0x8000 ∧ State.reset.running ∧ State.reset.regs.pc = .unset
/-- What a RESOLVE statement with an index assumes: for its address, for the fault on PC, and for the fault on the index. -/
abbrev indexedHypotheses (index : RegFile → RegCell Byte) (v : Byte) : Prop :=
  plainHypotheses ∧ index sample.regs = .val v ∧ noIndex.running ∧ noIndex.regs.pc = .val 0x8000 ∧ index noIndex.regs = .unset

theorem witness_ResolveAbsoluteIsTheOperandWord : plainHypotheses := by decide
theorem witness_ResolveAbsoluteXAddsXModulo65536 : indexedHypotheses (·.x) 0x04 := by decide
theorem witness_ResolveAbsoluteYAddsYModulo65536 : indexedHypotheses (·.y) 0x10 := by decide
theorem witness_ResolveZeroPageIsTheOperandByte : plainHypotheses := by decide
theorem witness_ResolveZeroPageXAddsXModulo256 : indexedHypotheses (·.x) 0x04 := by decide
theorem witness_ResolveZeroPageYAddsYModulo256 : indexedHypotheses (·.y) 0x10 := by decide
theorem witness_ResolveImmediateIsTheOperandAddress : plainHypotheses := by decide
theorem witness_ResolveRelativeAddsTheSignedByte : plainHypotheses := by decide
theorem witness_ResolveImplicitRaisesInvalidMode : sample.running ∧ State.reset.running := by decide
theorem witness_ResolveIndirectReadsTheWordAtThePointer : plainHypotheses := by decide
theorem witness_ResolveIndexedIndirectIndexesBeforeThePointer : indexedHypotheses (·.x) 0x04 := by decide
theorem witness_ResolveIndirectIndexedIndexesAfterThePointer : indexedHypotheses (·.y) 0x10 := by decide

theorem witness_IndexRegistersAreReadByTheirModesOnly :
    Instr.resolveAbs ∈ addressModes ∧ .resolveAbs ∉ xModes ∧ .resolveAbs ∉ yModes ∧ sample.running ∧ noIndex.running ∧
    Instr.resolveZpx ∈ addressModes ∧ .resolveZpx ∈ xModes ∧ noIndex.regs.x = .unset ∧
    Instr.resolveIzy ∈ addressModes ∧ .resolveIzy ∈ yModes ∧ noIndex.regs.y = .unset ∧
    exec .resolveImm sample = .next (respond 0x8001 sample) := by
  refine ⟨by decide, by decide, by decide, by decide, by decide, by decide, by decide, by decide, by decide, by decide, by decide, rfl⟩
/-- Two blocks that agree on the inputs and on nothing else. -/
theorem witness_ResolveDependsOnItsInputsOnly :
    let other : State := { sample with regs := { sample.regs with s := .unset, a := .unset, p := .val 0 }, resp := some ⟨0, 7⟩ }
    Instr.resolveIzx ∈ addressModes ∧ sample.running ∧ other.running ∧ sample.regs.pc = other.regs.pc ∧
    sample.regs.x = other.regs.x ∧ sample.regs.y = other.regs.y ∧ sample.config = other.config ∧
    (∀ a, sample.mem.read a = other.mem.read a) :=
  ⟨by decide, rfl, rfl, rfl, rfl, rfl, rfl, fun _ => rfl⟩
/-- One witness for each of the three cases, the last two just below the page's end. -/
theorem witness_ParametersMatterOnlyAtThePageEnd :
    let below : State := st [(0x8001, 0xFE)] (.val 0x8000) (.val 0) (.val 0)
    (exec (.readMem 0x24) sample = .next (respond 0x34 sample) ∧ Instr.readMem 0x24 ∉ [.resolveInd, .resolveIzx, .resolveIzy]) ∧
    (exec .resolveInd below = .next (respond 0 below) ∧ below.regs.pc = .val 0x8000 ∧ (operandByte below 0x8000).toNat ≠ 255) ∧
    (exec .resolveIzx below = .next (respond 0 below) ∧ below.regs.x = .val 0 ∧
      ((operandByte below 0x8000).toNat + (0 : Byte).toNat) % 256 ≠ 255) :=
  ⟨⟨rfl, by decide⟩, ⟨rfl, rfl, by decide⟩, ⟨rfl, rfl, by decide⟩⟩
/-- One state for all five clauses: the pointers lie away from the operand bytes. -/
theorem witness_ResolveSeesEarlierWritesAtOnce :
    sample.running ∧ sample.mem.wf ∧ sample.regs.pc = .val 0x8000 ∧
    (0x0020 : Word).toNat = operandWord sample 0x8000 ∧ (0x0020 : Word) ≠ 0x8000 + 1 ∧ (0x0020 : Word) ≠ 0x8000 + 2 ∧
    sample.regs.x = .val 0x04 ∧ (0x0024 : Word).toNat = ((operandByte sample 0x8000).toNat + (0x04 : Byte).toNat) % 256 ∧
    (0x0024 : Word) ≠ 0x8000 + 1 ∧ sample.regs.y = .val 0x10 ∧
    (0x0020 : Word).toNat = (operandByte sample 0x8000).toNat := by decide

theorem witness_RegWritePcIsTheOnlyWayPcChanges :
    sample.running ∧ Command.bits 0x00008004 0 3 = 4 ∧ Command.bits 0x00008004 3 3 = 0 ∧ Command.bits 0x00008004 6 10 ≠ 0 ∧
    exec (.regWritePc 1) sample = .next (respond 0 (setPc 1 sample)) ∧ (setPc 1 sample).regs.pc ≠ sample.regs.pc :=
  ⟨by decide, by decide, by decide, by decide, rfl, by decide⟩
/-- Both kinds of illegal word, at register codes 1 and 5. -/
theorem witness_RegWriteStoresTheByteInItsRegister :
    sample.running ∧
    [0x0000004C#32, 0x0100000C#32, 0x0000802C#32, 0x8000002C#32].all (fun w => decide (Command.bits w 0 3 = 4 ∧
      1 ≤ Command.bits w 3 3 ∧ Command.bits w 3 3 ≤ 5 ∧ (Command.bits w 6 10 ≠ 0 ∨ Command.bits w 24 8 ≠ 0))) = true := by
  decide
theorem witness_RegReadPcAnswersPc :
    sample.running ∧ sample.regs.pc = .val 0x8000 ∧ Instr.resolveImm ∈ addressModes ∧
    exec .resolveImm sample = .next (respond 0x8001 sample) ∧ (respond 0x8001 sample).running ∧
    State.reset.running ∧ State.reset.regs.pc = .unset ∧
    Command.bits 0x80000005 0 3 = 5 ∧ Command.bits 0x80000005 3 3 = 0 ∧ Command.bits 0x80000005 6 26 ≠ 0 :=
  ⟨by decide, by decide, by decide, rfl, by decide, by decide, by decide, by decide, by decide, by decide⟩
theorem witness_RegReadAnswersTheByteOfItsRegister :
    let r : RegFile := ⟨.unset, .val 7, .val 7, .val 7, .val 7, .val 7⟩
    let s : State := { State.reset with regs := r }
    s.running ∧ (7 : Word).toNat = (7 : Byte).toNat ∧
    s.regs.s = .val 7 ∧ s.regs.a = .val 7 ∧ s.regs.x = .val 7 ∧ s.regs.y = .val 7 ∧ s.regs.p = .val 7 ∧
    State.reset.running ∧ State.reset.regs.s = .unset ∧ State.reset.regs.a = .unset ∧ State.reset.regs.x = .unset ∧
    State.reset.regs.y = .unset ∧ State.reset.regs.p = .unset ∧
    [0x0000004D#32, 0x8000002D#32].all (fun w => decide (Command.bits w 0 3 = 5 ∧ 1 ≤ Command.bits w 3 3 ∧
      Command.bits w 3 3 ≤ 5 ∧ Command.bits w 6 26 ≠ 0)) = true := by decide
theorem witness_OpaqueRegistersChangeNoOutcome :
    Instr.resolveImm ∉ [.regReadS, .regReadA, .regReadP] ∧ exec .resolveImm sample = .next (respond 0x8001 sample) :=
  ⟨by decide, rfl⟩
/-- A command that succeeds and one that faults. -/
theorem witness_AccessMatrixOfAllCommands :
    exec (.regWriteS 1) sample = .next (respond 0 (setS 1 sample)) ∧
    exec .resolveImp sample = .next (enterFault .invalidModeForResolution 0x43 sample) ∧
    (enterFault .invalidModeForResolution 0x43 sample).fault ≠ none :=
  ⟨rfl, rfl, by decide⟩
theorem witness_OnlyResetMakesARegisterUnset :
    let s : State := { sample with pending := [.command 0x00000033] }
    step s = .next (respond 0x8001 sample) ∧ (∀ image rest, s.pending ≠ .reset image :: rest) ∧
    s.regs.pc ≠ .unset ∧ s.regs.s ≠ .unset ∧ s.regs.a ≠ .unset ∧ s.regs.x ≠ .unset ∧ s.regs.y ≠ .unset ∧ s.regs.p ≠ .unset :=
  ⟨rfl, by simp, by decide, by decide, by decide, by decide, by decide, by decide⟩

theorem witness_IllegalWordsRaiseIllegalCommand :
    sample.running ∧ Command.illegal 0x00000006 = true ∧ Command.illegal 0x00000063 = false ∧
    transact 0x00000063 sample = .next (enterFault .reservedMode 0x63 sample) :=
  ⟨by decide, by decide, by decide, rfl⟩
theorem witness_ReservedModesRaiseReservedMode :
    sample.running ∧ (0x0000007B : Command) ∈ [0x00000063#32, 0x0000006B#32, 0x00000073#32, 0x0000007B#32] := by decide
theorem witness_FaultEntryChangesNothingElse :
    State.reset.running ∧ transact 0x00000003 State.reset = .next (enterFault .uninitializedRegister 3 State.reset) ∧
    (enterFault .uninitializedRegister 3 State.reset).fault = some ⟨.uninitializedRegister, 3⟩ :=
  ⟨by decide, rfl, rfl⟩
theorem witness_HaltedBlockAcceptsNoCommand : stopped.fault = some ⟨.illegalCommand, 6⟩ := by decide
/-- A halted block; a word with a fault; a word with none. -/
theorem witness_FirstFailingCheckDecidesTheCause :
    stopped.fault = some ⟨.illegalCommand, 6⟩ ∧ sample.running ∧ faultOf 0x00000043 sample.regs = some .invalidModeForResolution ∧
    faultOf 0x0000000B RegFile.unwritten = some .uninitializedRegister ∧ faultOf 0x0000000B sample.regs = none := by decide
theorem witness_OutOfRangeAccessIsUnreachable :
    sample.running ∧ transact 0xFFFF0000 sample = .next (respond 0 sample) := ⟨by decide, rfl⟩

/-- A reset in front of a command, on a halted block with every register written, and an image with the last byte. -/
theorem witness_ResetLoadsTheImageAndUnsetsTheRegisters :
    let s : State := { stopped with pending := [.reset [(0xFFFF, 0x5A)], .command 0] }
    s.pending = .reset [(0xFFFF, 0x5A)] :: [.command 0] ∧ s.fault ≠ none ∧ s.regs = sample.regs := by decide
/-- Both clauses: a reset waits in front. -/
theorem witness_OnlyResetLeavesAFault :
    let s : State := { stopped with pending := [.reset [], .command 0] }
    s.fault = some ⟨.illegalCommand, 6⟩ ∧ s.pending = .reset [] :: [.command 0] ∧
    step s = .next { State.reset with pending := [.command 0] } :=
  ⟨by decide, rfl, rfl⟩
theorem witness_BootNeedsPcAndTheIndexRegisters :
    Instr.resolveRel ∈ addressModes ∧ .resolveRel ∉ xModes ∧ .resolveRel ∉ yModes ∧
    Instr.resolveIzx ∈ addressModes ∧ .resolveIzx ∈ xModes ∧ Instr.resolveIzy ∈ addressModes ∧ .resolveIzy ∈ yModes := by decide
/-- The four clauses: a command, the two kinds of refused word, no input, and a placed word. -/
theorem witness_StepRunsTheDecodedCommand :
    decode 0x00000033 = .ok .resolveImm ∧ sample.running ∧ decode 0x00000007 = .error .illegalCommand ∧
    decode 0x0000006B = .error .reservedMode ∧ sample.pending = [] ∧ decodeTableWord 32 0x33 = some .resolveImm ∧
    (sendNext 0x33 sample).pending = .command 0x33 :: [] := by decide
theorem witness_StepTakesInputsInOrderAndKeepsTheParameters :
    step (sendNext 0x33 sample) = .next (respond 0x8001 sample) := rfl
/-- A state with the invariant, its latch clear, and a step from it. -/
theorem witness_StepKeepsTheInvariant :
    (sendNext 0x33 sample).Inv ∧ step (sendNext 0x33 sample) = .next (respond 0x8001 sample) :=
  ⟨⟨by decide, fun _ h => (by cases h), fun _ _ h => (by cases h)⟩, rfl⟩
/-- A state with the invariant and the latch set. -/
theorem witness_Inv_halted : stopped.Inv :=
  ⟨by decide, fun _ h => (by cases h; exact ⟨by decide, rfl⟩), fun h => (by cases h)⟩

end Sys2Proof.Tests
end

section
/-! PROOFS. The memory accessors: a byte written is read back (O9), and the one write to memory there is (O10). -/

namespace Sys2Proof.Machine

variable {s t : State} {i : Instr}

/-! ### READ_MEM and WRITE_MEM, as the commands they are -/

/-- READ_MEM answers the byte that memory holds and leaves the rest of the state (R52). -/
theorem exec_readMem_of_read {a : Word} {v : Byte} (hs : s.running) (hv : s.mem.read a = v) :
    exec (.readMem a) s = .next (respond (zext16 v) s) := hv ▸ whileRunning_of_running hs

/-- WRITE_MEM steps exactly while the latch is clear, and stores its byte (R53). -/
theorem exec_writeMem_eq_next (a : Word) (d : Byte) :
    exec (.writeMem a d) s = .next t ↔ s.fault = none ∧ t = respond 0 (storeByte a d s) := writePort_eq_next

theorem exec_writeMem_of_running (hs : s.running) (a : Word) (d : Byte) :
    exec (.writeMem a d) s = .next (respond 0 (storeByte a d s)) := (exec_writeMem_eq_next a d).mpr ⟨hs, rfl⟩

theorem respond_respond (v w : Word) : respond v (respond w s) = respond v s := rfl

/-- The response of a write is gone once the next command has responded. -/
theorem respond_storeByte_respond (v w : Word) (a : Word) (d : Byte) :
    respond v (storeByte a d (respond w s)) = respond v (storeByte a d s) := rfl

/-! ### Memory after writes -/

theorem Memory.read_write_same {m : Memory} (h : m.wf) (a : Word) (v : Byte) : (m.write a v).read a = v := by
  rw [Memory.read_write h, if_pos rfl]

theorem Memory.read_write_of_ne {m : Memory} (h : m.wf) {a b : Word} (v : Byte) (hb : b ≠ a) :
    (m.write a v).read b = m.read b := by
  rw [Memory.read_write h, if_neg hb]

/-- Writes to two addresses commute, as data, since the canonical form is determined by the bytes (R33). -/
theorem Memory.write_comm {m : Memory} (h : m.wf) {a b : Word} (v w : Byte) (hab : a ≠ b) :
    (m.write a v).write b w = (m.write b w).write a v := by
  have ha := Memory.write_wf h a v
  have hb := Memory.write_wf h b w
  refine Memory.ext_of_wf (Memory.write_wf ha b w) (Memory.write_wf hb a v) fun c => ?_
  rw [Memory.read_write ha, Memory.read_write h, Memory.read_write hb, Memory.read_write h]
  by_cases hc : c = b
  · rw [if_pos hc, if_neg (hc ▸ hab.symm), if_pos hc]
  · rw [if_neg hc, if_neg hc]

theorem storeByte_comm (h : s.mem.wf) {a b : Word} (v w : Byte) (hab : a ≠ b) :
    storeByte b w (storeByte a v s) = storeByte a v (storeByte b w s) :=
  congrArg (fun m => { s with mem := m }) (Memory.write_comm h v w hab)

/-! ### The write to memory belongs to WRITE_MEM alone -/

theorem writeEffect_mem (hi : ∀ a d, i ≠ .writeMem a d) : (writeEffect i s).mem = s.mem := by
  cases i with
  | writeMem a d => exact absurd rfl (hi a d)
  | _ => rfl

/-- A command that is not WRITE_MEM leaves memory as it was, whether it faults or responds (R23). -/
theorem exec_mem_of_ne_writeMem (hi : ∀ a d, i ≠ .writeMem a d) (h : exec i s = .next t) : t.mem = s.mem := by
  obtain ⟨-, ⟨cause, -, rfl⟩ | ⟨v, rfl⟩⟩ := exec_next_cases h
  · rfl
  · exact writeEffect_mem hi

/-! ### WRITE_WORD -/

/-- Two WRITE_MEM in a row store both bytes. -/
theorem runAll_writeMem_writeMem (hs : s.running) (a b : Word) (v w : Byte) :
    runAll [.writeMem a v, .writeMem b w] s = .next (respond 0 (storeByte b w (storeByte a v s))) := by
  have hs' : (respond 0 (storeByte a v s)).running := hs
  simp only [runAll, exec_writeMem_of_running hs, exec_writeMem_of_running hs', respond_storeByte_respond]

theorem lowByte_toNat (w : Word) : (w.extractLsb' 0 8).toNat = w.toNat % 256 := by
  simp [BitVec.extractLsb'_toNat]

theorem highByte_toNat (w : Word) : (w.extractLsb' 8 8).toNat = w.toNat / 256 := by
  have := w.isLt
  simp only [BitVec.extractLsb'_toNat, Nat.shiftRight_eq_div_pow]
  omega

/-! ### The statements -/

/-- Settles O9: a read finds the byte of the write, and a second read repeats the response that stands already. -/
theorem writeThenReadReturnsTheByte : Obligations.WriteThenReadReturnsTheByte := by
  unfold Obligations.WriteThenReadReturnsTheByte
  intro s a v hs hm
  have hread : (respond 0 (storeByte a v s)).mem.read a = v := Memory.read_write_same hm a v
  exact ⟨_, _, _, exec_writeMem_of_running hs a v, fun b hb => Memory.read_write_of_ne hm v hb,
    exec_readMem_of_read hs hread, rfl, rfl, exec_readMem_of_read hs hread, respond_respond _ _⟩

/-- Settles O10: the write effect of each command, and the two orders of WRITE_WORD by `storeByte_comm`. -/
theorem wordIsStoredByTwoByteWritesInEitherOrder : Obligations.WordIsStoredByTwoByteWritesInEitherOrder := by
  unfold Obligations.WordIsStoredByTwoByteWritesInEitherOrder
  refine ⟨fun s t a d hm h => ?_, fun i s t hi h => exec_mem_of_ne_writeMem hi h, fun s a w hs hm => ?_⟩
  · obtain ⟨-, rfl⟩ := (exec_writeMem_eq_next a d).mp h
    exact ⟨rfl, Memory.read_write_same hm a d, fun b hb => Memory.read_write_of_ne hm d hb⟩
  · have hne : a ≠ a + 1 := by simp
    have hlow := Memory.write_wf hm a (w.extractLsb' 0 8)
    refine ⟨respond 0 (storeByte (a + 1) (w.extractLsb' 8 8) (storeByte a (w.extractLsb' 0 8) s)),
      runAll_writeMem_writeMem hs a (a + 1) _ _, ?_, ?_, ?_, fun b hb hb' => ?_, rfl⟩
    · rw [storeByte_comm hm _ _ hne]
      exact runAll_writeMem_writeMem hs (a + 1) a _ _
    · rw [respond_mem, storeByte_mem, storeByte_mem, Memory.read_write_of_ne hlow _ hne, Memory.read_write_same hm,
        lowByte_toNat]
    · rw [respond_mem, storeByte_mem, storeByte_mem, Memory.read_write_same hlow, highByte_toNat]
    · rw [respond_mem, storeByte_mem, storeByte_mem, Memory.read_write_of_ne hlow _ hb',
        Memory.read_write_of_ne hm _ hb]

end Sys2Proof.Machine
end

section
/-! PROOFS. The memory accessors: READ_MEM (O6), WRITE_MEM (O7) and READ_WORD (O8), each with its encoding, its whole
next state and the illegal words of its op code. -/

namespace Sys2Proof

variable {w : Command}

/-! ### The decoder on the op codes of format M, and the reserved bits that make a word illegal -/

theorem decode_of_op_readMem (hop : Command.bits w 0 3 = 0) :
    decode w = if spareFieldM w = 0 ∧ dataField w = 0 then .ok (.readMem (addrField w)) else .error .illegalCommand := by
  simp only [decode, opField_toNat, hop]

theorem decode_of_op_writeMem (hop : Command.bits w 0 3 = 1) :
    decode w = if spareFieldM w = 0 then .ok (.writeMem (addrField w) (dataField w)) else .error .illegalCommand := by
  simp only [decode, opField_toNat, hop]

theorem decode_of_op_readWord (hop : Command.bits w 0 3 = 2) :
    decode w = if spareFieldM w = 0 ∧ dataField w = 0 then .ok (.readWord (addrField w)) else .error .illegalCommand := by
  simp only [decode, opField_toNat, hop]

/-- `cmd[15:3]` is `data` above the spare bits `cmd[7:3]` (R42). -/
theorem bits_3_13_eq (w : Command) : Command.bits w 3 13 = Command.bits w 8 8 * 32 + Command.bits w 3 5 := by
  simp only [Command.bits]; omega

/-- The reserved bits of READ_MEM and READ_WORD are the spare bits and the data field together (R42, R47). -/
theorem bits_3_13_eq_zero : Command.bits w 3 13 = 0 ↔ spareFieldM w = 0 ∧ dataField w = 0 := by
  rw [spareFieldM_eq_zero, dataField_eq_zero, bits_3_13_eq]; omega

theorem decode_readMem_reserved (hop : Command.bits w 0 3 = 0) (hr : Command.bits w 3 13 ≠ 0) :
    decode w = .error .illegalCommand := by
  rw [decode_of_op_readMem hop, if_neg (mt bits_3_13_eq_zero.mpr hr)]

theorem decode_writeMem_reserved (hop : Command.bits w 0 3 = 1) (hr : Command.bits w 3 5 ≠ 0) :
    decode w = .error .illegalCommand := by
  rw [decode_of_op_writeMem hop, if_neg (mt (spareFieldM_eq_zero w).mp hr)]

theorem decode_readWord_reserved (hop : Command.bits w 0 3 = 2) (hr : Command.bits w 3 13 ≠ 0) :
    decode w = .error .illegalCommand := by
  rw [decode_of_op_readWord hop, if_neg (mt bits_3_13_eq_zero.mpr hr)]

/-- A format M word with no data, as the two reads have it (R52, R54). -/
theorem formatM_zero_toNat (addr : Word) (op : BitVec 3) :
    (formatM addr 0 op).toNat = addr.toNat * 65536 + op.toNat := by
  rw [formatM_toNat, BitVec.ofNat_eq_ofNat, BitVec.toNat_zero, Nat.zero_mul, Nat.add_zero]

end Sys2Proof

namespace Sys2Proof.Machine

variable {s : State} {w : Command}

/-! ### Illegal words, and READ_WORD as the command it is -/

theorem enterFault_eq_latched (cause : Cause) (cmd : Command) (s : State) :
    enterFault cause cmd s = s.latched cause cause.code cmd := rfl

/-- A word that the decoder calls illegal raises IllegalCommand on a running block (R92, R98). -/
theorem raisesIllegal_of_decode (hs : s.running) (hd : decode w = .error .illegalCommand) : RaisesIllegal s w := by
  simp only [RaisesIllegal, transact, hd, whileRunning_of_running hs, raise, causeOfDecodeError, enterFault_eq_latched,
    Cause.code]

/-- READ_WORD answers the word that memory holds and leaves the rest of the state (R54). -/
theorem exec_readWord_of_running (hs : s.running) (a : Word) :
    exec (.readWord a) s = .next (respond (s.mem.readWord a) s) := whileRunning_of_running hs

/-! ### The statements -/

/-- Settles O7: the memory of the next state is the written one, whose reads `Memory.read_write` gives. -/
theorem writeMemStoresTheByte : Obligations.WriteMemStoresTheByte := by
  unfold Obligations.WriteMemStoresTheByte
  intro s a d hs
  refine ⟨formatM_toNat a d 1, ⟨s.mem.write a d, exec_writeMem_of_running hs a d, fun hm => ?_⟩, fun w hop hr => ?_⟩
  · exact ⟨Memory.write_wf hm a d, Memory.read_write_same hm a d, fun b hb => Memory.read_write_of_ne hm d hb⟩
  · exact raisesIllegal_of_decode hs (decode_writeMem_reserved hop hr)

/-- Settles O8: the response is `Memory.readWord`, whose high byte `add16` takes at `a + 1`; no parameter is read. -/
theorem readWordAnswersTheLittleEndianWord : Obligations.ReadWordAnswersTheLittleEndianWord := by
  unfold Obligations.ReadWordAnswersTheLittleEndianWord
  intro s a hs
  refine ⟨formatM_zero_toNat a 2, ⟨s.mem.readWord a, ?_, exec_readWord_of_running hs a⟩, fun w hop hr => ?_⟩
  · rw [readWord_toNat, Nat.mul_comm, add16]
  · exact raisesIllegal_of_decode hs (decode_readWord_reserved hop hr)

/-- Settles O6: the response is the byte under `zext16`, which keeps its number. -/
theorem readMemAnswersTheByte : Obligations.ReadMemAnswersTheByte := by
  unfold Obligations.ReadMemAnswersTheByte
  intro s a hs
  refine ⟨(formatM_zero_toNat a 0).trans (Nat.add_zero _),
    ⟨zext16 (s.mem.read a), zext16_toNat _, exec_readMem_of_read hs rfl⟩, fun w hop hr => ?_⟩
  exact raisesIllegal_of_decode hs (decode_readMem_reserved hop hr)

end Sys2Proof.Machine
end

section
/-! PROOFS. RESOLVE, the shape of its commands: each of the eleven address modes is the plain or the indexed form of
Machine/Operands.lean with an effective address that memory and the parameters give (R55), and from that which registers
decide its outcome (O23). -/

namespace Sys2Proof.Machine

variable {s t : State} {i : Instr} {index : RegFile → RegCell Byte}

/-! ### The two forms of RESOLVE -/

/-- `i` is RESOLVE in a mode without an index register, with the effective address `ea`. -/
def HasPlainForm (i : Instr) (ea : Config → Memory → Word → Word) : Prop :=
  ∀ s : State, exec i s = resolveWith (encode i) (ea s.config s.mem) s

/-- `i` is RESOLVE in a mode that reads `index`, with the effective address `ea`. -/
def HasIndexedForm (i : Instr) (index : RegFile → RegCell Byte) (ea : Config → Memory → Word → Byte → Word) : Prop :=
  ∀ s : State, exec i s = resolveIndexedWith (encode i) (index s.regs) (ea s.config s.mem) s

theorem resolveAbs_form : HasPlainForm .resolveAbs fun _ => eaAbsolute := fun _ => rfl
theorem resolveAbsx_form : HasIndexedForm .resolveAbsx (·.x) fun _ => eaAbsoluteIndexed := fun _ => rfl
theorem resolveAbsy_form : HasIndexedForm .resolveAbsy (·.y) fun _ => eaAbsoluteIndexed := fun _ => rfl
theorem resolveZp_form : HasPlainForm .resolveZp fun _ => eaZeroPage := fun _ => rfl
theorem resolveZpx_form : HasIndexedForm .resolveZpx (·.x) fun _ => eaZeroPageIndexed := fun _ => rfl
theorem resolveZpy_form : HasIndexedForm .resolveZpy (·.y) fun _ => eaZeroPageIndexed := fun _ => rfl
theorem resolveImm_form : HasPlainForm .resolveImm fun _ _ => eaImmediate := fun _ => rfl
theorem resolveRel_form : HasPlainForm .resolveRel fun _ => eaRelative := fun _ => rfl
theorem resolveInd_form : HasPlainForm .resolveInd eaIndirect := fun _ => rfl
theorem resolveIzx_form : HasIndexedForm .resolveIzx (·.x) eaIndexedIndirect := fun _ => rfl
theorem resolveIzy_form : HasIndexedForm .resolveIzy (·.y) eaIndirectIndexed := fun _ => rfl

/-- How a command of the address modes reads the index registers (R57). -/
inductive ResolveForm (i : Instr) : Prop where
  | plain {ea} (form : HasPlainForm i ea) (notX : i ∉ xModes) (notY : i ∉ yModes)
  | byX {ea} (form : HasIndexedForm i (·.x) ea) (isX : i ∈ xModes) (notY : i ∉ yModes)
  | byY {ea} (form : HasIndexedForm i (·.y) ea) (notX : i ∉ xModes) (isY : i ∈ yModes)

theorem resolveForm_of_addressMode (hi : i ∈ addressModes) : ResolveForm i := by
  cases i with
  | resolveAbs => exact .plain resolveAbs_form (by decide) (by decide)
  | resolveAbsx => exact .byX resolveAbsx_form (by decide) (by decide)
  | resolveAbsy => exact .byY resolveAbsy_form (by decide) (by decide)
  | resolveZp => exact .plain resolveZp_form (by decide) (by decide)
  | resolveZpx => exact .byX resolveZpx_form (by decide) (by decide)
  | resolveZpy => exact .byY resolveZpy_form (by decide) (by decide)
  | resolveImm => exact .plain resolveImm_form (by decide) (by decide)
  | resolveRel => exact .plain resolveRel_form (by decide) (by decide)
  | resolveInd => exact .plain resolveInd_form (by decide) (by decide)
  | resolveIzx => exact .byX resolveIzx_form (by decide) (by decide)
  | resolveIzy => exact .byY resolveIzy_form (by decide) (by decide)
  | _ => simp [addressModes] at hi

/-! ### A register that is `Unset` where the form reads it -/

theorem HasPlainForm.exec_of_unset {ea : Config → Memory → Word → Word} (h : HasPlainForm i ea) (hs : s.running)
    (hpc : s.regs.pc = .unset) : exec i s = .next (s.latched .uninitializedRegister 4 (encode i)) := by
  rw [h s]
  exact resolveWith_eq_next.mpr ⟨hs, .inl ⟨hpc, rfl⟩⟩

theorem HasIndexedForm.exec_of_unset {ea : Config → Memory → Word → Byte → Word} (h : HasIndexedForm i index ea)
    (hs : s.running) (hu : s.regs.pc = .unset ∨ index s.regs = .unset) :
    exec i s = .next (s.latched .uninitializedRegister 4 (encode i)) := by
  rw [h s]
  exact resolveIndexedWith_eq_next.mpr ⟨hs, .inl ⟨hu, rfl⟩⟩

theorem exec_xMode_of_unset (hi : i ∈ addressModes) (hx : i ∈ xModes) (hs : s.running) (hu : s.regs.x = .unset) :
    exec i s = .next (s.latched .uninitializedRegister 4 (encode i)) := by
  cases resolveForm_of_addressMode hi with
  | plain _ notX => exact absurd hx notX
  | byX form => exact form.exec_of_unset hs (.inr hu)
  | byY _ notX => exact absurd hx notX

theorem exec_yMode_of_unset (hi : i ∈ addressModes) (hy : i ∈ yModes) (hs : s.running) (hu : s.regs.y = .unset) :
    exec i s = .next (s.latched .uninitializedRegister 4 (encode i)) := by
  cases resolveForm_of_addressMode hi with
  | plain _ _ notY => exact absurd hy notY
  | byX _ _ notY => exact absurd hy notY
  | byY form => exact form.exec_of_unset hs (.inr hu)

/-! ### Registers that the form does not read -/

variable {r : RegFile}

/-- A plain form reads PC alone of the registers and keeps them all (R55). -/
theorem HasPlainForm.exec_of_regs {ea : Config → Memory → Word → Word} (h : HasPlainForm i ea)
    (hpc : r.pc = s.regs.pc) (hst : exec i s = .next t) :
    exec i { s with regs := r } = .next { t with regs := r } := by
  rw [h, resolveWith_eq_next] at hst ⊢
  obtain ⟨hf, ⟨hu, rfl⟩ | ⟨pc, hv, rfl⟩⟩ := hst
  · exact ⟨hf, .inl ⟨hpc.trans hu, rfl⟩⟩
  · exact ⟨hf, .inr ⟨pc, hpc.trans hv, rfl⟩⟩

/-- An indexed form reads PC and its index alone of the registers and keeps them all (R55, R57). -/
theorem HasIndexedForm.exec_of_regs {ea : Config → Memory → Word → Byte → Word} (h : HasIndexedForm i index ea)
    (hpc : r.pc = s.regs.pc) (hidx : index r = index s.regs) (hst : exec i s = .next t) :
    exec i { s with regs := r } = .next { t with regs := r } := by
  rw [h, resolveIndexedWith_eq_next] at hst ⊢
  obtain ⟨hf, ⟨hu, rfl⟩ | ⟨pc, idx, hv, hi, rfl⟩⟩ := hst
  · exact ⟨hf, .inl ⟨hu.imp hpc.trans hidx.trans, rfl⟩⟩
  · exact ⟨hf, .inr ⟨pc, idx, hpc.trans hv, hidx.trans hi, rfl⟩⟩

/-- An address mode's outcome is the same under every register file that agrees on PC and on the index registers that
the mode reads (R57). -/
theorem exec_addressMode_of_regs (hi : i ∈ addressModes) (hpc : r.pc = s.regs.pc) (hx : i ∈ xModes → r.x = s.regs.x)
    (hy : i ∈ yModes → r.y = s.regs.y) (h : exec i s = .next t) :
    exec i { s with regs := r } = .next { t with regs := r } := by
  cases resolveForm_of_addressMode hi with
  | plain form => exact form.exec_of_regs hpc h
  | byX form isX => exact form.exec_of_regs hpc (hx isX) h
  | byY form _ isY => exact form.exec_of_regs hpc (hy isY) h

theorem writeEffect_of_addressMode (hi : i ∈ addressModes) : writeEffect i s = s := by
  fin_cases hi <;> rfl

/-- No RESOLVE changes a register (R55). -/
theorem exec_addressMode_keeps_regs (hi : i ∈ addressModes) (h : exec i s = .next t) : t.regs = s.regs := by
  obtain ⟨-, ⟨cause, -, rfl⟩ | ⟨v, rfl⟩⟩ := exec_next_cases h
  · rfl
  · rw [writeEffect_of_addressMode hi, respond_regs]

/-! ### The statement -/

/-- Settles O23: by the form of the mode, which has one index register or none. -/
theorem indexRegistersAreReadByTheirModesOnly : Obligations.IndexRegistersAreReadByTheirModesOnly := by
  unfold Obligations.IndexRegistersAreReadByTheirModesOnly
  intro i s hi hs
  refine ⟨fun notX x t h => ?_, fun notY y t h => ?_, fun hx hu => exec_xMode_of_unset hi hx hs hu,
    fun hy hu => exec_yMode_of_unset hi hy hs hu⟩
  · rw [exec_addressMode_keeps_regs hi h]
    exact exec_addressMode_of_regs hi rfl (absurd · notX) (fun _ => rfl) h
  · rw [exec_addressMode_keeps_regs hi h]
    exact exec_addressMode_of_regs hi rfl (fun _ => rfl) (absurd · notY) h

end Sys2Proof.Machine
end

section
/-! PROOFS. RESOLVE, the address of each mode as a number (O11 to O18, O20 to O22): the operand, the index and the
pointers, then the statements through the two forms. -/

namespace Sys2Proof.Machine

variable {i : Instr} {cmd : Command} {index : RegFile → RegCell Byte}

/-! ### From a form to its statement -/

/-- A command of the plain form resolves to what its effective address is as a number. -/
theorem HasPlainForm.resolvesTo {f : Config → Memory → Word → Word} {ea : State → Word → Nat} (h : HasPlainForm i f)
    (hcmd : encode i = cmd) (hea : ∀ s pc, (f s.config s.mem (operandAddress pc)).toNat = ea s pc) :
    ResolvesTo i cmd ea := by
  refine ⟨hcmd, fun s hs => ⟨fun pc hpc => ⟨_, hea s pc, ?_⟩, fun hpc => hcmd ▸ h.exec_of_unset hs hpc⟩⟩
  rw [h s]
  exact resolveWith_of_val hs hpc

/-- A command of the indexed form resolves to what its effective address is as a number. -/
theorem HasIndexedForm.resolvesIndexedTo {f : Config → Memory → Word → Byte → Word} {ea : State → Word → Byte → Nat}
    (h : HasIndexedForm i index f) (hcmd : encode i = cmd)
    (hea : ∀ s pc idx, (f s.config s.mem (operandAddress pc) idx).toNat = ea s pc idx) :
    ResolvesIndexedTo i cmd index ea := by
  refine ⟨hcmd, fun s hs => ⟨fun pc idx hpc hidx => ⟨_, hea s pc idx, ?_⟩, fun hu => hcmd ▸ h.exec_of_unset hs hu⟩⟩
  rw [h s]
  exact resolveIndexedWith_of_val hs hpc hidx

/-! ### The operand as a number -/

variable (s : State) (pc : Word) (idx zp : Byte)

theorem read_operandAddress : s.mem.read (operandAddress pc) = operandByte s pc := rfl

theorem readWord_operandAddress_toNat : (s.mem.readWord (operandAddress pc)).toNat = operandWord s pc := by
  have hhigh : add16 (operandAddress pc) 1 = pc + 2 := BitVec.add_assoc pc 1 1
  rw [readWord_toNat, hhigh, read_operandAddress, operandByte, operandWord, Nat.mul_comm]

theorem readWord_operandAddress : s.mem.readWord (operandAddress pc) = BitVec.ofNat 16 (operandWord s pc) := by
  rw [← readWord_operandAddress_toNat, BitVec.ofNat_toNat, BitVec.setWidth_eq]

theorem eaAbsoluteIndexed_toNat :
    (eaAbsoluteIndexed s.mem (operandAddress pc) idx).toNat = (operandWord s pc + idx.toNat) % 65536 := by
  rw [eaAbsoluteIndexed, add16_toNat, zext16_toNat, readWord_operandAddress_toNat]

theorem eaZeroPageIndexed_toNat :
    (eaZeroPageIndexed s.mem (operandAddress pc) idx).toNat = ((operandByte s pc).toNat + idx.toNat) % 256 := by
  rw [eaZeroPageIndexed, zext16_toNat, add8_toNat, read_operandAddress]

/-- Relative mode's sum in the integers: both sides are the number below 65536 of one class modulo 65536. -/
theorem eaRelative_toNat : (eaRelative s.mem (operandAddress pc)).toNat =
    (((pc.toNat : Int) + 1 + (operandByte s pc).toInt) % 65536).toNat := by
  have hone : (1 : Word).toNat = 1 := rfl
  have hlt := (operandByte s pc).isLt
  rw [eaRelative, add16_toNat, sext16_toNat, read_operandAddress, operandAddress, add16_toNat, hone,
    BitVec.toInt_eq_toNat_cond]
  split_ifs <;> omega

/-! ### Pointers as numbers -/

theorem zext16_eq_ofNat : zext16 zp = BitVec.ofNat 16 zp.toNat := by
  apply BitVec.eq_of_toNat_eq
  rw [zext16_toNat, BitVec.toNat_ofNat, Nat.mod_eq_of_lt (by omega)]

theorem zpHighAddress_eq_ofNat (cfg : Config) : zpHighAddress cfg zp =
    BitVec.ofNat 16 (if cfg.zpPtrWrap then (zp.toNat + 1) % 256 else zp.toNat + 1) := by
  cases h : cfg.zpPtrWrap with
  | false => simp [zpHighAddress, h, add16, zext16_eq_ofNat, BitVec.ofNat_add]
  | true => simp [zpHighAddress, h, zext16_eq_ofNat, add8_toNat]

theorem zpWord_toNat_eq_zpPointer : (zpWord s.config s.mem zp).toNat = zpPointer s zp.toNat := by
  rw [zpWord_toNat, zpHighAddress_eq_ofNat, zext16_eq_ofNat, zpPointer, Nat.mul_comm]

/-- In the last byte of a page, clearing the low byte is subtracting 255 (R67). -/
theorem and_0xFF00_eq_sub {ptr : Word} (h : ptr.toNat % 256 = 255) : ptr &&& 0xFF00#16 = ptr - 255 := by
  have hlow : ptr &&& 0xFF#16 = 255 := by
    apply BitVec.eq_of_toNat_eq
    rw [BitVec.toNat_and]
    exact (Nat.and_two_pow_sub_one_eq_mod ptr.toNat 8).trans h
  have hsum : (ptr &&& 0xFF00#16) + (ptr &&& 0xFF#16) = ptr := by
    have hdisjoint : (ptr &&& 0xFF00#16) &&& (ptr &&& 0xFF#16) = 0 :=
      calc (ptr &&& 0xFF00#16) &&& (ptr &&& 0xFF#16)
        _ = (ptr &&& ptr) &&& (0xFF00#16 &&& 0xFF#16) := by ac_rfl
        _ = 0 := BitVec.and_zero
    rw [BitVec.add_eq_or_of_and_eq_zero _ _ hdisjoint, ← BitVec.and_or_distrib_left]
    exact BitVec.and_allOnes
  exact eq_sub_of_add_eq (hlow ▸ hsum)

theorem indirectHighAddress_eq (cfg : Config) (ptr : Word) : indirectHighAddress cfg ptr =
    if cfg.indPageWrap ∧ ptr.toNat % 256 = 255 then ptr - 255 else ptr + 1 := by
  have hlow : ptr.extractLsb' 0 8 = 0xFF#8 ↔ ptr.toNat % 256 = 255 := by
    rw [← BitVec.toNat_inj, lowByte_toNat]; rfl
  rw [indirectHighAddress]
  simp only [hlow]
  split_ifs with h
  · exact and_0xFF00_eq_sub h.2
  · rfl

theorem eaIndirect_toNat_eq_indirectWord (opnd : Word) :
    (eaIndirect s.config s.mem opnd).toNat = indirectWord s (s.mem.readWord opnd) := by
  rw [eaIndirect_toNat, indirectHighAddress_eq, indirectWord, Nat.mul_comm]

/-! ### The statements -/

/-- Settles O20: the pointer is the operand word, and the word there is `indirectWord`. -/
theorem resolveIndirectReadsTheWordAtThePointer : Obligations.ResolveIndirectReadsTheWordAtThePointer :=
  resolveInd_form.resolvesTo (by decide) fun s pc => by
    rw [eaIndirect_toNat_eq_indirectWord, readWord_operandAddress]

/-- Settles O21: `zpPointer` at the sum that `add8` takes modulo 256. -/
theorem resolveIndexedIndirectIndexesBeforeThePointer : Obligations.ResolveIndexedIndirectIndexesBeforeThePointer :=
  resolveIzx_form.resolvesIndexedTo (by decide) fun s pc x => by
    rw [eaIndexedIndirect, zpWord_toNat_eq_zpPointer, add8_toNat, read_operandAddress]

/-- Settles O22: `zpPointer` at the operand byte, then a sum that `add16` takes modulo 65536. -/
theorem resolveIndirectIndexedIndexesAfterThePointer : Obligations.ResolveIndirectIndexedIndexesAfterThePointer :=
  resolveIzy_form.resolvesIndexedTo (by decide) fun s pc y => by
    rw [eaIndirectIndexed, add16_toNat, zpWord_toNat_eq_zpPointer, zext16_toNat, read_operandAddress]

/-- Settles O18: the sum in the integers, `eaRelative_toNat`. -/
theorem resolveRelativeAddsTheSignedByte : Obligations.ResolveRelativeAddsTheSignedByte :=
  resolveRel_form.resolvesTo (by decide) eaRelative_toNat

/-- Settles O12: the indexed sum modulo 65536, with X. -/
theorem resolveAbsoluteXAddsXModulo65536 : Obligations.ResolveAbsoluteXAddsXModulo65536 :=
  resolveAbsx_form.resolvesIndexedTo (by decide) eaAbsoluteIndexed_toNat

/-- Settles O13: the indexed sum modulo 65536, with Y. -/
theorem resolveAbsoluteYAddsYModulo65536 : Obligations.ResolveAbsoluteYAddsYModulo65536 :=
  resolveAbsy_form.resolvesIndexedTo (by decide) eaAbsoluteIndexed_toNat

/-- Settles O15: the indexed sum modulo 256, with X. -/
theorem resolveZeroPageXAddsXModulo256 : Obligations.ResolveZeroPageXAddsXModulo256 :=
  resolveZpx_form.resolvesIndexedTo (by decide) eaZeroPageIndexed_toNat

/-- Settles O16: the indexed sum modulo 256, with Y. -/
theorem resolveZeroPageYAddsYModulo256 : Obligations.ResolveZeroPageYAddsYModulo256 :=
  resolveZpy_form.resolvesIndexedTo (by decide) eaZeroPageIndexed_toNat

/-- Settles O11: the word read at the operand address. -/
theorem resolveAbsoluteIsTheOperandWord : Obligations.ResolveAbsoluteIsTheOperandWord :=
  resolveAbs_form.resolvesTo (by decide) readWord_operandAddress_toNat

/-- Settles O14: the byte read at the operand address, which `zext16` keeps as a number. -/
theorem resolveZeroPageIsTheOperandByte : Obligations.ResolveZeroPageIsTheOperandByte :=
  resolveZp_form.resolvesTo (by decide) fun s pc => zext16_toNat (operandByte s pc)

/-- Settles O17: the operand address itself, which `add16` takes modulo 65536. -/
theorem resolveImmediateIsTheOperandAddress : Obligations.ResolveImmediateIsTheOperandAddress :=
  resolveImm_form.resolvesTo (by decide) fun _ pc => add16_toNat pc 1

end Sys2Proof.Machine
end

section
/-! PROOFS. RESOLVE in the modes that compute no address: Implicit (O19) and the reserved modes (O35), each a fault entry
in every running state and then the halt. -/

namespace Sys2Proof.Machine

variable {s : State} {w : Command}

/-- RESOLVE.IMP reads nothing: its fault entry is the step of every running state (R66, R90). -/
theorem exec_resolveImp_of_running (hs : s.running) :
    exec .resolveImp s = .next (enterFault .invalidModeForResolution (encode .resolveImp) s) :=
  whileRunning_of_running hs

/-- A word that names no command takes the fault of the decoder's refusal on every running block (R91, R92). -/
theorem transact_of_decode_error {e : DecodeError} (hs : s.running) (hd : decode w = .error e) :
    transact w s = .next (enterFault (causeOfDecodeError e) w s) := by
  simp only [transact, hd, whileRunning_of_running hs, raise]

/-- No word has a step after a fault entry (R96). -/
theorem transact_latched (w' : Command) (cause : Cause) (code : BitVec 3) :
    transact w' (s.latched cause code w) = .fault (.halted { cause := cause, cmd := w }) := transact_of_halted rfl

/-- The four words of RESOLVE with mode 12 to 15 (R48, R71). -/
theorem decode_reservedMode_words :
    ∀ w ∈ [0x00000063#32, 0x0000006B#32, 0x00000073#32, 0x0000007B#32], decode w = .error .reservedMode := by
  intro w hw
  fin_cases hw <;> decide

/-- Settles O35: the decoder refuses the four words as reserved modes before the state is looked at. -/
theorem reservedModesRaiseReservedMode : Obligations.ReservedModesRaiseReservedMode := by
  unfold Obligations.ReservedModesRaiseReservedMode
  intro s w hs hw
  exact ⟨transact_of_decode_error hs (decode_reservedMode_words w hw), fun w' => transact_latched w' _ _⟩

/-- Settles O19: the fault entry of RESOLVE.IMP, then the halt. -/
theorem resolveImplicitRaisesInvalidMode : Obligations.ResolveImplicitRaisesInvalidMode := by
  unfold Obligations.ResolveImplicitRaisesInvalidMode
  have hcmd : encode .resolveImp = 0x00000043 := by decide
  exact ⟨hcmd, fun s hs => ⟨hcmd ▸ exec_resolveImp_of_running hs, fun w' => transact_latched w' _ _⟩⟩

end Sys2Proof.Machine
end

section
/-! PROOFS. The register port: REG_WRITE.PC (O27), REG_WRITE of the byte registers (O28), REG_READ.PC (O29) and REG_READ
of the byte registers (O30). -/

namespace Sys2Proof

variable {w : Command}

/-! ### The decoder on the op codes of format G, and the bits that make a word illegal -/

theorem decode_of_op_regWrite (hop : Command.bits w 0 3 = 4) :
    decode w = if spareFieldG w = 0 then decodeRegWrite w else .error .illegalCommand := by
  simp only [decode, opField_toNat, hop]

theorem decode_of_op_regRead (hop : Command.bits w 0 3 = 5) :
    decode w = if spareFieldG w = 0 ∧ wordValueField w = 0 then decodeRegRead (regField w)
      else .error .illegalCommand := by
  simp only [decode, opField_toNat, hop]

/-- `cmd[31:6]` is `value` above the reserved bits `cmd[15:6]` (R44). -/
theorem bits_6_26_eq (w : Command) : Command.bits w 6 26 = Command.bits w 16 16 * 1024 + Command.bits w 6 10 := by
  simp only [Command.bits]; omega

/-- The reserved bits of REG_READ are those of format G and the value field together (R44, R47). -/
theorem bits_6_26_eq_zero : Command.bits w 6 26 = 0 ↔ spareFieldG w = 0 ∧ wordValueField w = 0 := by
  rw [spareFieldG_eq_zero, wordValueField_eq_zero, bits_6_26_eq]; omega

theorem decode_regWrite_reserved (hop : Command.bits w 0 3 = 4) (hr : Command.bits w 6 10 ≠ 0) :
    decode w = .error .illegalCommand := by
  rw [decode_of_op_regWrite hop, if_neg (mt (spareFieldG_eq_zero w).mp hr)]

theorem decode_regRead_reserved (hop : Command.bits w 0 3 = 5) (hr : Command.bits w 6 26 ≠ 0) :
    decode w = .error .illegalCommand := by
  rw [decode_of_op_regRead hop, if_neg (mt bits_6_26_eq_zero.mpr hr)]

/-- A value that does not fit in a byte is refused, never truncated (R47, R79). -/
theorem decodeByteWrite_wide (write : Byte → Instr) (hv : Command.bits w 24 8 ≠ 0) :
    decodeByteWrite write w = .error .illegalCommand := if_neg (mt (byteValueSpareField_eq_zero w).mp hv)

/-- Every register code but PC's refuses a wide value: 1 to 5 as a byte write, 6 and 7 in any case (R46, R47). -/
theorem decodeRegWrite_wide (hreg : Command.bits w 3 3 ≠ 0) (hv : Command.bits w 24 8 ≠ 0) :
    decodeRegWrite w = .error .illegalCommand := by
  rw [← regField_toNat] at hreg
  unfold decodeRegWrite
  split
  case h_1 hpc => exact absurd hpc hreg
  case h_7 => rfl
  all_goals exact decodeByteWrite_wide _ hv

theorem decode_regWrite_wide (hop : Command.bits w 0 3 = 4) (hreg : Command.bits w 3 3 ≠ 0)
    (hv : Command.bits w 24 8 ≠ 0) : decode w = .error .illegalCommand := by
  rw [decode_of_op_regWrite hop, decodeRegWrite_wide hreg hv, ite_self]

/-- The word of REG_WRITE.PC: the value above op code 4 (R77). -/
theorem regWritePc_toNat (v : Word) : (encode (.regWritePc v)).toNat = v.toNat * 65536 + 4 := by
  rw [encode, formatG_toNat, BitVec.ofNat_eq_ofNat, BitVec.toNat_zero, Nat.zero_mul, Nat.add_zero]; rfl

end Sys2Proof

namespace Sys2Proof.Machine

variable {s t : State} {i : Instr} {cmd word : Command}

/-! ### REG_WRITE and REG_READ on a running block -/

theorem writePort_of_running (hs : s.running) {update : State → State} :
    writePort update s = .next (respond 0 (update s)) := writePort_eq_next.mpr ⟨hs, rfl⟩

theorem readPort_of_val {α : Type} {cell : RegCell α} {toWord : α → Word} {v : α} (hs : s.running)
    (hc : cell = .val v) : readPort cmd cell toWord s = .next (s.answered (toWord v)) :=
  readPort_eq_next.mpr ⟨hs, .inr ⟨v, hc, rfl⟩⟩

/-- The fault entry of a read records the word of the command (R89, R93). -/
theorem readPort_of_unset {α : Type} {cell : RegCell α} {toWord : α → Word} (hcmd : cmd = word) (hs : s.running)
    (hc : cell = .unset) : readPort cmd cell toWord s = .next (s.latched .uninitializedRegister 4 word) :=
  hcmd ▸ readPort_eq_next.mpr ⟨hs, .inl ⟨hc, rfl⟩⟩

theorem exec_regReadPc_of_val {v : Word} (hs : s.running) (hpc : s.regs.pc = .val v) :
    exec .regReadPc s = .next (s.answered v) := readPort_of_val hs hpc

/-! ### PC belongs to REG_WRITE.PC alone -/

theorem writeEffect_pc_cases : (writeEffect i s).regs.pc = s.regs.pc ∨
    ∃ v, i = .regWritePc v ∧ (writeEffect i s).regs.pc = .val v := by
  cases i with
  | regWritePc v => exact .inr ⟨v, rfl, rfl⟩
  | _ => exact .inl rfl

/-- Every command keeps PC, faulting or not, but REG_WRITE.PC (R23, R77). -/
theorem exec_pc_cases (h : exec i s = .next t) :
    t.regs.pc = s.regs.pc ∨ ∃ v, i = .regWritePc v ∧ t.regs.pc = .val v := by
  obtain ⟨-, ⟨cause, -, rfl⟩ | ⟨v, rfl⟩⟩ := exec_next_cases h
  · exact .inl rfl
  · exact writeEffect_pc_cases

/-! ### The statements -/

/-- Settles O27: the write effect of each command on PC, `exec_pc_cases`. -/
theorem regWritePcIsTheOnlyWayPcChanges : Obligations.RegWritePcIsTheOnlyWayPcChanges := by
  unfold Obligations.RegWritePcIsTheOnlyWayPcChanges
  intro s hs
  refine ⟨fun v => ⟨regWritePc_toNat v, writePort_of_running hs⟩, fun w hop _ hr => ?_, fun i t h hne => ?_⟩
  · exact raisesIllegal_of_decode hs (decode_regWrite_reserved hop hr)
  · obtain ⟨v, hi, -⟩ := (exec_pc_cases h).resolve_left hne
    exact ⟨v, hi⟩

/-- Settles O28: each command is the port's write of its own cell, and the decoder refuses reserved bits and wide
values. -/
theorem regWriteStoresTheByteInItsRegister : Obligations.RegWriteStoresTheByteInItsRegister := by
  unfold Obligations.RegWriteStoresTheByteInItsRegister
  intro s hs
  refine ⟨fun v => ?_, fun w hop hlo _ hbits => raisesIllegal_of_decode hs ?_⟩
  · exact ⟨formatByteWrite_toNat v 1, writePort_of_running hs, formatByteWrite_toNat v 2, writePort_of_running hs,
      formatByteWrite_toNat v 3, writePort_of_running hs, formatByteWrite_toNat v 4, writePort_of_running hs,
      formatByteWrite_toNat v 5, writePort_of_running hs⟩
  · obtain hr | hv := hbits
    · exact decode_regWrite_reserved hop hr
    · exact decode_regWrite_wide hop (Nat.one_le_iff_ne_zero.mp hlo) hv

/-- Settles O29: a RESOLVE keeps the register file, so the read after it finds the same PC. -/
theorem regReadPcAnswersPc : Obligations.RegReadPcAnswersPc := by
  unfold Obligations.RegReadPcAnswersPc
  have hcmd : encode .regReadPc = 0x00000005 := by decide
  refine ⟨hcmd, fun s hs => ⟨fun v hpc => ⟨exec_regReadPc_of_val hs hpc, fun i t hi h ht => ?_⟩,
    readPort_of_unset hcmd hs, fun w hop _ hr => ?_⟩⟩
  · have hregs : t.regs = s.regs := exec_addressMode_keeps_regs hi h
    exact exec_regReadPc_of_val ht (hregs ▸ hpc)
  · exact raisesIllegal_of_decode hs (decode_regRead_reserved hop hr)

/-- Settles O30: each command is the port's read of its own cell under `zext16`, the one word with the byte's number. -/
theorem regReadAnswersTheByteOfItsRegister : Obligations.RegReadAnswersTheByteOfItsRegister := by
  unfold Obligations.RegReadAnswersTheByteOfItsRegister
  have hcmdS : encode .regReadS = 0x0000000D := by decide
  have hcmdA : encode .regReadA = 0x00000015 := by decide
  have hcmdX : encode .regReadX = 0x0000001D := by decide
  have hcmdY : encode .regReadY = 0x00000025 := by decide
  have hcmdP : encode .regReadP = 0x0000002D := by decide
  refine ⟨hcmdS, hcmdA, hcmdX, hcmdY, hcmdP, fun s hs => ⟨fun v r hr => ?_, readPort_of_unset hcmdS hs,
    readPort_of_unset hcmdA hs, readPort_of_unset hcmdX hs, readPort_of_unset hcmdY hs, readPort_of_unset hcmdP hs,
    fun w hop _ _ hbits => raisesIllegal_of_decode hs (decode_regRead_reserved hop hbits)⟩⟩
  obtain rfl : zext16 v = r := BitVec.eq_of_toNat_eq ((zext16_toNat v).trans hr.symm)
  exact ⟨readPort_of_val hs, readPort_of_val hs, readPort_of_val hs, readPort_of_val hs, readPort_of_val hs⟩

end Sys2Proof.Machine
end

section
/-! PROOFS. The decoder against R47 and R48: which words it refuses and under which name, and that the command it reads
has no other word. -/

namespace Sys2Proof

variable {w : Command} {i : Instr}

/-! ### R47's list of illegal words, op code by op code -/

/-- The op codes of R41 and the two that R47 reserves. -/
theorem op_cases (w : Command) :
    Command.bits w 0 3 = 0 ∨ Command.bits w 0 3 = 1 ∨ Command.bits w 0 3 = 2 ∨ Command.bits w 0 3 = 3 ∨
      Command.bits w 0 3 = 4 ∨ Command.bits w 0 3 = 5 ∨ 6 ≤ Command.bits w 0 3 := by omega

/-- R47's bullets as propositions. -/
theorem illegal_iff : Command.illegal w = true ↔
    6 ≤ Command.bits w 0 3 ∨
    (Command.bits w 0 3 ≤ 2 ∧ Command.bits w 3 5 ≠ 0) ∨
    ((Command.bits w 0 3 = 0 ∨ Command.bits w 0 3 = 2) ∧ Command.bits w 8 8 ≠ 0) ∨
    (Command.bits w 0 3 = 3 ∧ Command.bits w 7 25 ≠ 0) ∨
    ((Command.bits w 0 3 = 4 ∨ Command.bits w 0 3 = 5) ∧ Command.bits w 6 10 ≠ 0) ∨
    (Command.bits w 0 3 = 5 ∧ Command.bits w 16 16 ≠ 0) ∨
    ((Command.bits w 0 3 = 4 ∨ Command.bits w 0 3 = 5) ∧ 6 ≤ Command.bits w 3 3) ∨
    (Command.bits w 0 3 = 4 ∧ 1 ≤ Command.bits w 3 3 ∧ Command.bits w 3 3 ≤ 5 ∧ Command.bits w 24 8 ≠ 0) := by
  simp only [Command.illegal, Command.opReserved, Command.reservedBitSet, Command.regReserved, Command.byteValueTooWide,
    Bool.or_eq_true, Bool.and_eq_true, decide_eq_true_eq, or_assoc, and_assoc, ge_iff_le]

theorem illegal_of_op_read (hop : Command.bits w 0 3 = 0 ∨ Command.bits w 0 3 = 2) :
    Command.illegal w = true ↔ ¬(spareFieldM w = 0 ∧ dataField w = 0) := by
  rw [illegal_iff, spareFieldM_eq_zero, dataField_eq_zero]
  obtain hop | hop := hop <;> simp [hop, imp_iff_not_or]

theorem illegal_of_op_writeMem (hop : Command.bits w 0 3 = 1) : Command.illegal w = true ↔ ¬spareFieldM w = 0 := by
  rw [illegal_iff, spareFieldM_eq_zero]
  simp [hop]

theorem illegal_of_op_resolve (hop : Command.bits w 0 3 = 3) : Command.illegal w = true ↔ ¬spareFieldR w = 0 := by
  rw [illegal_iff, spareFieldR_eq_zero]
  simp [hop]

theorem illegal_of_op_regWrite (hop : Command.bits w 0 3 = 4) :
    Command.illegal w = true ↔ (spareFieldG w = 0 →
      6 ≤ (regField w).toNat ∨ ((regField w).toNat ≠ 0 ∧ ¬byteValueSpareField w = 0)) := by
  rw [illegal_iff, spareFieldG_eq_zero, byteValueSpareField_eq_zero, regField_toNat]
  have hreg : (6 ≤ Command.bits w 3 3 ∨ 1 ≤ Command.bits w 3 3 ∧ Command.bits w 3 3 ≤ 5 ∧ ¬Command.bits w 24 8 = 0) ↔
      (6 ≤ Command.bits w 3 3 ∨ ¬Command.bits w 3 3 = 0 ∧ ¬Command.bits w 24 8 = 0) := by omega
  simp [hop, imp_iff_not_or, hreg]

theorem illegal_of_op_regRead (hop : Command.bits w 0 3 = 5) :
    Command.illegal w = true ↔ (spareFieldG w = 0 ∧ wordValueField w = 0 → 6 ≤ (regField w).toNat) := by
  rw [illegal_iff, spareFieldG_eq_zero, wordValueField_eq_zero, regField_toNat]
  simp [hop, imp_iff_not_or, or_assoc]

theorem illegal_of_op_reserved (hop : 6 ≤ Command.bits w 0 3) : Command.illegal w = true := illegal_iff.mpr (.inl hop)

/-! ### The words that the decoder refuses -/

theorem decode_of_op_resolve (hop : Command.bits w 0 3 = 3) :
    decode w = if spareFieldR w = 0 then decodeMode (modeField w) else .error .illegalCommand := by
  simp only [decode, opField_toNat, hop]

theorem decode_of_op_reserved (hop : 6 ≤ Command.bits w 0 3) : decode w = .error .illegalCommand := by
  rw [← opField_toNat] at hop
  unfold decode
  split
  case h_7 => rfl
  all_goals omega

/-- A decoder's result that is no illegal word has passed the check of the reserved bits. -/
theorem guarded_eq_iff {c : Prop} [Decidable c] {x r : Except DecodeError Instr} (hr : r ≠ .error .illegalCommand) :
    (if c then x else .error .illegalCommand) = r ↔ c ∧ x = r := by
  simp [ite_eq_iff, hr.symm]

theorem decodeMode_eq_error_iff (mode : BitVec 4) (e : DecodeError) :
    decodeMode mode = .error e ↔ 12 ≤ mode.toNat ∧ e = .reservedMode := by
  cases e <;> revert mode <;> decide

theorem decodeRegRead_eq_error_iff (reg : BitVec 3) (e : DecodeError) :
    decodeRegRead reg = .error e ↔ 6 ≤ reg.toNat ∧ e = .illegalCommand := by
  cases e <;> revert reg <;> decide

theorem decodeByteWrite_eq_error_iff (write : Byte → Instr) (e : DecodeError) :
    decodeByteWrite write w = .error e ↔ ¬byteValueSpareField w = 0 ∧ e = .illegalCommand := by
  by_cases hv : byteValueSpareField w = 0
  · simp [decodeByteWrite, hv]
  · rw [decodeByteWrite, if_neg hv, Except.error.injEq, and_iff_right hv, eq_comm]

theorem decodeRegWrite_eq_error_iff (e : DecodeError) :
    decodeRegWrite w = .error e ↔
      (6 ≤ (regField w).toNat ∨ ((regField w).toNat ≠ 0 ∧ ¬byteValueSpareField w = 0)) ∧ e = .illegalCommand := by
  unfold decodeRegWrite
  have := (regField w).isLt
  split
  case h_1 hreg => simp [hreg]
  case h_7 =>
    have : 6 ≤ (regField w).toNat := by simp only [imp_false] at *; omega
    simp [this, eq_comm]
  all_goals
    rename_i hreg
    simp [hreg, decodeByteWrite_eq_error_iff]

/-- The decoder refuses as illegal exactly the words on R47's list. -/
theorem decode_eq_illegalCommand_iff : decode w = .error .illegalCommand ↔ Command.illegal w = true := by
  obtain hop | hop | hop | hop | hop | hop | hop := op_cases w
  · simp [decode_of_op_readMem hop, illegal_of_op_read (.inl hop)]
  · simp [decode_of_op_writeMem hop, illegal_of_op_writeMem hop]
  · simp [decode_of_op_readWord hop, illegal_of_op_read (.inr hop)]
  · simp [decode_of_op_resolve hop, illegal_of_op_resolve hop, decodeMode_eq_error_iff]
  · simp [decode_of_op_regWrite hop, illegal_of_op_regWrite hop, decodeRegWrite_eq_error_iff]
  · simp [decode_of_op_regRead hop, illegal_of_op_regRead hop, decodeRegRead_eq_error_iff]
  · simp [decode_of_op_reserved hop, illegal_of_op_reserved hop]

theorem reservedMode_iff : Command.reservedMode w = true ↔
    Command.bits w 0 3 = 3 ∧ spareFieldR w = 0 ∧ 12 ≤ (modeField w).toNat := by
  rw [Command.reservedMode, modeField_toNat]
  by_cases hop : Command.bits w 0 3 = 3
  · simp [hop, ← Bool.not_eq_true, illegal_of_op_resolve hop]
  · simp [hop]

/-- The decoder refuses as reserved exactly R48's modes. -/
theorem decode_eq_reservedMode_iff : decode w = .error .reservedMode ↔ Command.reservedMode w = true := by
  rw [reservedMode_iff]
  obtain hop | hop | hop | hop | hop | hop | hop := op_cases w
  · simp [decode_of_op_readMem hop, guarded_eq_iff, hop]
  · simp [decode_of_op_writeMem hop, guarded_eq_iff, hop]
  · simp [decode_of_op_readWord hop, guarded_eq_iff, hop]
  · simp [decode_of_op_resolve hop, guarded_eq_iff, hop, decodeMode_eq_error_iff]
  · simp [decode_of_op_regWrite hop, guarded_eq_iff, hop, decodeRegWrite_eq_error_iff]
  · simp [decode_of_op_regRead hop, guarded_eq_iff, hop, decodeRegRead_eq_error_iff]
  · have hne : Command.bits w 0 3 ≠ 3 := by omega
    simp [decode_of_op_reserved hop, hne]

/-! ### The one word of a command -/

theorem opField_eq_of_bits {op : BitVec 3} (hop : Command.bits w 0 3 = op.toNat) : opField w = op :=
  BitVec.eq_of_toNat_eq ((opField_toNat w).trans hop)

theorem encode_of_decodeMode {mode : BitVec 4} (h : decodeMode mode = .ok i) : encode i = formatR mode := by
  have hall : ∀ mode, ∀ i ∈ (decodeMode mode).toOption, encode i = formatR mode := by decide
  exact hall mode i (by rw [h]; rfl)

theorem encode_of_decodeRegRead {reg : BitVec 3} (h : decodeRegRead reg = .ok i) : encode i = formatG 0 reg 5 := by
  have hall : ∀ reg, ∀ i ∈ (decodeRegRead reg).toOption, encode i = formatG 0 reg 5 := by decide
  exact hall reg i (by rw [h]; rfl)

theorem encode_of_decodeByteWrite {write : Byte → Instr} {reg : BitVec 3}
    (henc : ∀ v, encode (write v) = formatByteWrite v reg) (hop : opField w = 4) (hG : spareFieldG w = 0)
    (hreg : (regField w).toNat = reg.toNat) (h : decodeByteWrite write w = .ok i) : encode i = w := by
  obtain rfl := BitVec.eq_of_toNat_eq hreg
  obtain ⟨hv, hi⟩ := (guarded_eq_iff (by simp)).mp h
  obtain rfl := Except.ok.inj hi
  rw [henc, formatByteWrite_of_fields hop hG hv]

theorem encode_of_decodeRegWrite (hop : opField w = 4) (hG : spareFieldG w = 0) (h : decodeRegWrite w = .ok i) :
    encode i = w := by
  unfold decodeRegWrite at h
  split at h
  case h_1 hreg =>
    obtain rfl := Except.ok.inj h
    have hreg : regField w = 0 := BitVec.eq_of_toNat_eq hreg
    rw [encode, ← hreg, ← hop]
    exact formatG_of_fields hG
  case h_2 hreg => exact encode_of_decodeByteWrite (reg := 1) (fun _ => rfl) hop hG hreg h
  case h_3 hreg => exact encode_of_decodeByteWrite (reg := 2) (fun _ => rfl) hop hG hreg h
  case h_4 hreg => exact encode_of_decodeByteWrite (reg := 3) (fun _ => rfl) hop hG hreg h
  case h_5 hreg => exact encode_of_decodeByteWrite (reg := 4) (fun _ => rfl) hop hG hreg h
  case h_6 hreg => exact encode_of_decodeByteWrite (reg := 5) (fun _ => rfl) hop hG hreg h
  case h_7 => cases h

/-- A command is read from its own word only, since no field of a legal word is dropped (R40 to R47). -/
theorem encode_of_decode (h : decode w = .ok i) : encode i = w := by
  have passed {c : Prop} [Decidable c] {x : Except DecodeError Instr}
      (hd : decode w = if c then x else .error .illegalCommand) : c ∧ x = .ok i :=
    (guarded_eq_iff (by simp)).mp (hd ▸ h)
  obtain hop | hop | hop | hop | hop | hop | hop := op_cases w
  · obtain ⟨⟨hM, hdata⟩, hi⟩ := passed (decode_of_op_readMem hop)
    obtain rfl := Except.ok.inj hi
    have hw := formatM_of_fields hM
    rwa [hdata, opField_eq_of_bits (op := 0) hop] at hw
  · obtain ⟨hM, hi⟩ := passed (decode_of_op_writeMem hop)
    obtain rfl := Except.ok.inj hi
    have hw := formatM_of_fields hM
    rwa [opField_eq_of_bits (op := 1) hop] at hw
  · obtain ⟨⟨hM, hdata⟩, hi⟩ := passed (decode_of_op_readWord hop)
    obtain rfl := Except.ok.inj hi
    have hw := formatM_of_fields hM
    rwa [hdata, opField_eq_of_bits (op := 2) hop] at hw
  · obtain ⟨hR, hi⟩ := passed (decode_of_op_resolve hop)
    rw [encode_of_decodeMode hi, formatR_of_fields (opField_eq_of_bits hop) hR]
  · obtain ⟨hG, hi⟩ := passed (decode_of_op_regWrite hop)
    exact encode_of_decodeRegWrite (opField_eq_of_bits hop) hG hi
  · obtain ⟨⟨hG, hvalue⟩, hi⟩ := passed (decode_of_op_regRead hop)
    have hw := formatG_of_fields hG
    rwa [hvalue, opField_eq_of_bits (op := 5) hop, ← encode_of_decodeRegRead hi] at hw
  · simp [decode_of_op_reserved hop] at h

end Sys2Proof
end

section
/-! PROOFS. The order of checks (O38): how a command word ends on a running block, check by check along R98's list, and
from that the fault entry (O36), the illegal words (O34) and the halt (O37). -/

namespace Sys2Proof.Machine

variable {s t : State} {w : Command} {i : Instr} {r : RegFile}

/-! ### R98's list on the words of each format -/

/-- R98's checks after those of the encoding: the cause that a legal word raises. -/
def faultOfLegal (w : Command) (r : RegFile) : Option Cause :=
  if Command.bits w 0 3 = 3 ∧ Command.bits w 3 4 = 8 then some .invalidModeForResolution
  else if readsUnset w r then some .uninitializedRegister
  else none

/-- The encoding checks, in the decoder's terms. -/
theorem faultOf_of_decode_error {e : DecodeError} (hd : decode w = .error e) :
    faultOf w r = some (causeOfDecodeError e) := by
  cases e with
  | illegalCommand => rw [faultOf, if_pos (decode_eq_illegalCommand_iff.mp hd), causeOfDecodeError]
  | reservedMode =>
    have hill : ¬Command.illegal w = true := by simp [← decode_eq_illegalCommand_iff, hd]
    rw [faultOf, if_neg hill, if_pos (decode_eq_reservedMode_iff.mp hd), causeOfDecodeError]

theorem faultOf_of_decode (hd : decode w = .ok i) : faultOf w r = faultOfLegal w r := by
  have hill : ¬Command.illegal w = true := by simp [← decode_eq_illegalCommand_iff, hd]
  have hres : ¬Command.reservedMode w = true := by simp [← decode_eq_reservedMode_iff, hd]
  rw [faultOf, if_neg hill, if_neg hres, faultOfLegal]

theorem faultOf_eq_illegalCommand_iff : faultOf w r = some .illegalCommand ↔ Command.illegal w = true := by
  unfold faultOf
  split_ifs <;> simp [*]

/-- Only RESOLVE and REG_READ have checks of their own. -/
theorem faultOfLegal_of_op (hresolve : opField w ≠ 3) (hread : opField w ≠ 5) : faultOfLegal w r = none := by
  have h3 : Command.bits w 0 3 ≠ 3 := mt (opField_eq_of_bits (op := 3)) hresolve
  have h5 : Command.bits w 0 3 ≠ 5 := mt (opField_eq_of_bits (op := 5)) hread
  simp [faultOfLegal, readsUnset, h3, h5]

theorem bits_formatR (mode : BitVec 4) :
    Command.bits (formatR mode) 0 3 = 3 ∧ Command.bits (formatR mode) 3 4 = mode.toNat := by
  rw [← opField_toNat, ← modeField_toNat, opField_formatR, modeField_formatR]
  exact ⟨rfl, rfl⟩

theorem faultOfLegal_plainMode {mode : BitVec 4} (hm : mode ∈ [0#4, 3#4, 6#4, 7#4, 9#4]) :
    faultOfLegal (formatR mode) r = if r.pc.isUnset then some .uninitializedRegister else none := by
  fin_cases hm <;> simp [faultOfLegal, readsUnset, bits_formatR]

theorem faultOfLegal_xMode {mode : BitVec 4} (hm : mode ∈ [1#4, 4#4, 10#4]) :
    faultOfLegal (formatR mode) r = if r.pc.isUnset then some .uninitializedRegister
      else if r.x.isUnset then some .uninitializedRegister else none := by
  fin_cases hm <;> simp [faultOfLegal, readsUnset, bits_formatR, ite_or]

theorem faultOfLegal_yMode {mode : BitVec 4} (hm : mode ∈ [2#4, 5#4, 11#4]) :
    faultOfLegal (formatR mode) r = if r.pc.isUnset then some .uninitializedRegister
      else if r.y.isUnset then some .uninitializedRegister else none := by
  fin_cases hm <;> simp [faultOfLegal, readsUnset, bits_formatR, ite_or]

theorem bits_formatG (value : Word) (reg op : BitVec 3) :
    Command.bits (formatG value reg op) 0 3 = op.toNat ∧ Command.bits (formatG value reg op) 3 3 = reg.toNat := by
  rw [← opField_toNat, ← regField_toNat, opField_formatG, regField_formatG]
  exact ⟨rfl, rfl⟩

theorem faultOfLegal_regRead (reg : BitVec 3) :
    faultOfLegal (formatG 0 reg 5) r = if r.codeUnset reg.toNat then some .uninitializedRegister else none := by
  simp [faultOfLegal, readsUnset, bits_formatG]

/-! ### How a command ends -/

/-- How the word `w` ends on `s` when the checks give the cause or `none`: in the fault entry of that cause (R95), or in
a response of a block that still runs (R49). -/
inductive Ends (w : Command) (s : State) : Option Cause → Result → Prop where
  | faults (cause : Cause) : Ends w s (some cause) (.next (enterFault cause w s))
  | responds (v : Word) {u : State} (running : u.running) : Ends w s none (.next (respond v u))

/-- A cell that is read is one check (R93). -/
theorem readCell_ends {α : Type} {cell : RegCell α} {use : α → Result} {rest : Option Cause}
    (huse : ∀ v, Ends w s rest (use v)) :
    Ends w s (if cell.isUnset then some .uninitializedRegister else rest) (readCell cell w s use) := by
  cases cell with
  | unset => exact .faults _
  | val v => exact huse v

theorem writePort_ends {update : State → State} (hs : s.running) (hu : (update s).running) :
    Ends w s none (writePort update s) := by
  rw [writePort_of_running hs]
  exact .responds _ hu

theorem readPort_ends {α : Type} {cell : RegCell α} {toWord : α → Word} {reg : BitVec 3} (hs : s.running)
    (hc : s.regs.codeUnset reg.toNat = cell.isUnset) :
    Ends (formatG 0 reg 5) s (faultOfLegal (formatG 0 reg 5) s.regs) (readPort (formatG 0 reg 5) cell toWord s) := by
  rw [faultOfLegal_regRead, hc, readPort, whileRunning_of_running hs]
  exact readCell_ends fun v => .responds _ hs

theorem resolveWith_ends {mode : BitVec 4} {ea : Word → Word} (hs : s.running)
    (hm : mode ∈ [0#4, 3#4, 6#4, 7#4, 9#4]) :
    Ends (formatR mode) s (faultOfLegal (formatR mode) s.regs) (resolveWith (formatR mode) ea s) := by
  rw [faultOfLegal_plainMode hm, resolveWith, whileRunning_of_running hs]
  exact readCell_ends fun pc => .responds _ hs

/-- PC is checked before the index (R98). -/
theorem resolveIndexedWith_ends {index : RegCell Byte} {ea : Word → Byte → Word} (hs : s.running) :
    Ends w s (if s.regs.pc.isUnset then some .uninitializedRegister
      else if index.isUnset then some .uninitializedRegister else none) (resolveIndexedWith w index ea s) := by
  rw [resolveIndexedWith, whileRunning_of_running hs]
  exact readCell_ends fun pc => readCell_ends fun idx => .responds _ hs

theorem resolveX_ends {mode : BitVec 4} {ea : Word → Byte → Word} (hs : s.running) (hm : mode ∈ [1#4, 4#4, 10#4]) :
    Ends (formatR mode) s (faultOfLegal (formatR mode) s.regs)
      (resolveIndexedWith (formatR mode) s.regs.x ea s) := by
  rw [faultOfLegal_xMode hm]
  exact resolveIndexedWith_ends hs

theorem resolveY_ends {mode : BitVec 4} {ea : Word → Byte → Word} (hs : s.running) (hm : mode ∈ [2#4, 5#4, 11#4]) :
    Ends (formatR mode) s (faultOfLegal (formatR mode) s.regs)
      (resolveIndexedWith (formatR mode) s.regs.y ea s) := by
  rw [faultOfLegal_yMode hm]
  exact resolveIndexedWith_ends hs

/-- Every command ends as the checks on its own word say. -/
theorem exec_ends (i : Instr) (hs : s.running) : Ends (encode i) s (faultOfLegal (encode i) s.regs) (exec i s) := by
  cases i
  case resolveImp =>
    have hmode : faultOfLegal (formatR 8) s.regs = some .invalidModeForResolution := by
      simp [faultOfLegal, bits_formatR]
    rw [exec_resolveImp_of_running hs, encode, hmode]
    exact .faults _
  case resolveAbs | resolveZp | resolveImm | resolveRel | resolveInd => exact resolveWith_ends hs (by decide)
  case resolveAbsx | resolveZpx | resolveIzx => exact resolveX_ends hs (by decide)
  case resolveAbsy | resolveZpy | resolveIzy => exact resolveY_ends hs (by decide)
  case regReadPc | regReadS | regReadA | regReadX | regReadY | regReadP => exact readPort_ends hs rfl
  all_goals rw [faultOfLegal_of_op (by simp [encode]) (by simp [encode])]
  case readMem a => exact exec_readMem_of_read hs rfl ▸ .responds _ hs
  case writeMem a d => exact writePort_ends hs hs
  case readWord a => exact exec_readWord_of_running hs a ▸ .responds _ hs
  all_goals exact writePort_ends hs hs

/-- Every command word ends as R98's list says. -/
theorem transact_ends (w : Command) (hs : s.running) : Ends w s (faultOf w s.regs) (transact w s) := by
  cases hd : decode w with
  | ok i =>
    have hends := exec_ends i hs
    rw [encode_of_decode hd] at hends
    simpa only [faultOf_of_decode hd, transact, hd] using hends
  | error e =>
    rw [faultOf_of_decode_error hd, transact_of_decode_error hs hd]
    exact .faults _

/-- A set latch after a word is the fault entry of the cause that the checks give. -/
theorem transact_fault_entry {record : FaultRecord} (hs : s.running) (h : transact w s = .next t)
    (hf : t.fault = some record) :
    faultOf w s.regs = some record.cause ∧ record.cmd = w ∧ t = enterFault record.cause w s := by
  have hends := transact_ends w hs
  rw [h] at hends
  generalize faultOf w s.regs = checks at hends ⊢
  cases hends with
  | faults cause =>
    obtain rfl := Option.some.inj hf
    exact ⟨rfl, rfl, rfl⟩
  | responds v running => simp [running] at hf

/-! ### The statements -/

/-- Settles O38: R98's first check is the halt, and the others are `transact_ends`. -/
theorem firstFailingCheckDecidesTheCause : Obligations.FirstFailingCheckDecidesTheCause := by
  unfold Obligations.FirstFailingCheckDecidesTheCause
  refine fun s w => ⟨fun record h => transact_of_halted h, fun hs => ?_⟩
  have hends := transact_ends w hs
  generalize faultOf w s.regs = checks at hends ⊢
  generalize transact w s = outcome at hends ⊢
  cases hends with
  | faults cause => exact ⟨_, rfl, fun _ h => Option.some.inj h ▸ ⟨rfl, rfl⟩, nofun⟩
  | responds v running => exact ⟨_, rfl, nofun, fun _ => ⟨running, v, rfl⟩⟩

/-- Settles O36: a set latch is the fault entry of the word's own cause. -/
theorem faultEntryChangesNothingElse : Obligations.FaultEntryChangesNothingElse := by
  unfold Obligations.FaultEntryChangesNothingElse
  intro s t w record hs h hf
  obtain ⟨-, hcmd, ht⟩ := transact_fault_entry hs h hf
  exact ⟨hcmd, ht⟩

/-- Settles O34: the illegal words are the ones whose first failing check is IllegalCommand's. -/
theorem illegalWordsRaiseIllegalCommand : Obligations.IllegalWordsRaiseIllegalCommand := by
  unfold Obligations.IllegalWordsRaiseIllegalCommand
  refine fun s w hs => ⟨fun hill => ⟨?_, fun w' => transact_latched w' _ _⟩, fun hill t h hf => ?_⟩
  · exact raisesIllegal_of_decode hs (decode_eq_illegalCommand_iff.mpr hill)
  · obtain ⟨hcause, -, -⟩ := transact_fault_entry hs h hf
    exact absurd (faultOf_eq_illegalCommand_iff.mp hcause) (by simp [hill])

/-- Settles O37: R98's first check. -/
theorem haltedBlockAcceptsNoCommand : Obligations.HaltedBlockAcceptsNoCommand := by
  unfold Obligations.HaltedBlockAcceptsNoCommand
  exact fun s record w h => transact_of_halted h

end Sys2Proof.Machine
end

section
/-! PROOFS. Boot (O42): how a run of commands ends as how its last one does, what an address mode needs of the registers
to answer, and from that which writes each command needs after a reset (R106). -/

namespace Sys2Proof.Machine

variable {s t : State} {i : Instr} {is : List Instr}

/-! ### How a run of commands ends -/

/-- The run `is` from `s` ends in a success (R49). -/
def RunAnswers (s : State) (is : List Instr) : Prop :=
  ∃ (t : State) (v : Word), runAll is s = .next t ∧ t.running ∧ t.resp = some { status := 0, value := v }

/-- The run `is` from `s` ends in the fault entry UninitializedRegister of the command `i` (R93, R95). -/
def RunFaults (s : State) (is : List Instr) (i : Instr) : Prop :=
  ∃ t : State, runAll is s = .next t ∧ t.fault = some { cause := .uninitializedRegister, cmd := encode i } ∧
    t.resp = some { status := 4, value := 0 }

theorem runAll_cons_of_next (h : exec i s = .next t) : runAll (i :: is) s = runAll is t := by rw [runAll, h]

theorem RunAnswers.of_exec {v : Word} (h : exec i s = .next (respond v t)) (ht : t.running) : RunAnswers s [i] :=
  ⟨_, v, runAll_cons_of_next h, ht, rfl⟩

theorem RunFaults.of_exec (h : exec i s = .next (s.latched .uninitializedRegister 4 (encode i))) :
    RunFaults s [i] i := ⟨_, runAll_cons_of_next h, rfl, rfl⟩

theorem RunAnswers.cons {j : Instr} (h : exec j s = .next t) (hrun : RunAnswers t is) : RunAnswers s (j :: is) := by
  rwa [RunAnswers, runAll_cons_of_next h]

theorem RunFaults.cons {j : Instr} (h : exec j s = .next t) (hrun : RunFaults t is i) : RunFaults s (j :: is) i := by
  rwa [RunFaults, runAll_cons_of_next h]

/-! ### The writes of the boot sequence -/

theorem exec_regWritePc_of_running (hs : s.running) (pc : Word) :
    exec (.regWritePc pc) s = .next (respond 0 (setPc pc s)) := writePort_of_running hs

theorem exec_regWriteX_of_running (hs : s.running) (x : Byte) :
    exec (.regWriteX x) s = .next (respond 0 (setX x s)) := writePort_of_running hs

theorem exec_regWriteY_of_running (hs : s.running) (y : Byte) :
    exec (.regWriteY y) s = .next (respond 0 (setY y s)) := writePort_of_running hs

/-! ### What an address mode needs of the registers -/

variable {pc : Word} {idx : Byte}

/-- Every address mode reads PC (R55, R56). -/
theorem exec_addressMode_of_unset_pc (hi : i ∈ addressModes) (hs : s.running) (hpc : s.regs.pc = .unset) :
    exec i s = .next (s.latched .uninitializedRegister 4 (encode i)) := by
  cases resolveForm_of_addressMode hi with
  | plain form => exact form.exec_of_unset hs hpc
  | byX form => exact form.exec_of_unset hs (.inl hpc)
  | byY form => exact form.exec_of_unset hs (.inl hpc)

theorem HasPlainForm.exec_of_val {ea : Config → Memory → Word → Word} (h : HasPlainForm i ea) (hs : s.running)
    (hpc : s.regs.pc = .val pc) : ∃ v, exec i s = .next (respond v s) :=
  ⟨_, (h s).trans (resolveWith_of_val hs hpc)⟩

theorem HasIndexedForm.exec_of_val {index : RegFile → RegCell Byte} {ea : Config → Memory → Word → Byte → Word}
    (h : HasIndexedForm i index ea) (hs : s.running) (hpc : s.regs.pc = .val pc) (hidx : index s.regs = .val idx) :
    ∃ v, exec i s = .next (respond v s) :=
  ⟨_, (h s).trans (resolveIndexedWith_of_val hs hpc hidx)⟩

/-- A mode without an index needs PC alone. -/
theorem runAnswers_plainMode (hi : i ∈ addressModes) (hx : i ∉ xModes) (hy : i ∉ yModes) (hs : s.running)
    (hpc : s.regs.pc = .val pc) : RunAnswers s [i] := by
  cases resolveForm_of_addressMode hi with
  | plain form =>
    obtain ⟨v, h⟩ := form.exec_of_val hs hpc
    exact .of_exec h hs
  | byX _ isX => exact absurd isX hx
  | byY _ _ isY => exact absurd isY hy

/-- A mode of X needs PC and X alone. -/
theorem runAnswers_xMode (hi : i ∈ addressModes) (hx : i ∈ xModes) (hs : s.running) (hpc : s.regs.pc = .val pc)
    (hidx : s.regs.x = .val idx) : RunAnswers s [i] := by
  cases resolveForm_of_addressMode hi with
  | byX form =>
    obtain ⟨v, h⟩ := form.exec_of_val hs hpc hidx
    exact .of_exec h hs
  | plain _ notX => exact absurd hx notX
  | byY _ notX => exact absurd hx notX

/-- A mode of Y needs PC and Y alone. -/
theorem runAnswers_yMode (hi : i ∈ addressModes) (hy : i ∈ yModes) (hs : s.running) (hpc : s.regs.pc = .val pc)
    (hidx : s.regs.y = .val idx) : RunAnswers s [i] := by
  cases resolveForm_of_addressMode hi with
  | byY form =>
    obtain ⟨v, h⟩ := form.exec_of_val hs hpc hidx
    exact .of_exec h hs
  | plain _ _ notY => exact absurd hy notY
  | byX _ _ notY => exact absurd hy notY

/-! ### What REG_READ finds after a reset -/

/-- A command whose checks give a cause takes that fault entry (R95, R98). -/
theorem exec_of_failing_check {cause : Cause} (hs : s.running) (h : faultOfLegal (encode i) s.regs = some cause) :
    exec i s = .next (enterFault cause (encode i) s) := by
  have hends := exec_ends i hs
  generalize exec i s = outcome at hends ⊢
  rw [h] at hends
  cases hends with
  | faults => rfl

/-- Every cell is `Unset` after a reset, so the check of every REG_READ fails (R24, R93). -/
theorem faultOfLegal_regRead_unwritten :
    ∀ i ∈ [Instr.regReadPc, .regReadS, .regReadA, .regReadX, .regReadY, .regReadP],
      faultOfLegal (encode i) RegFile.unwritten = some .uninitializedRegister := by decide

/-! ### The statement -/

/-- Settles O42: each run is the writes, one by one, and then the command on the registers that they leave. -/
theorem bootNeedsPcAndTheIndexRegisters : Obligations.BootNeedsPcAndTheIndexRegisters := by
  unfold Obligations.BootNeedsPcAndTheIndexRegisters
  intro image s pc x y
  have hs : (hostReset image s).running := rfl
  have writeX := exec_regWriteX_of_running hs x
  have writeXThenY := exec_regWriteY_of_running (s := respond 0 (setX x (hostReset image s))) hs y
  have writePc := exec_regWritePc_of_running hs pc
  have writePcThenX := exec_regWriteX_of_running (s := respond 0 (setPc pc (hostReset image s))) hs x
  have writePcThenY := exec_regWriteY_of_running (s := respond 0 (setPc pc (hostReset image s))) hs y
  refine ⟨fun a d => ⟨?_, ?_, ?_⟩, fun i hi => ?_, fun i hi =>
    ⟨?_, ?_, fun notX notY => ?_, fun isX => ⟨?_, ?_⟩, fun isY => ⟨?_, ?_⟩⟩⟩
  · exact RunAnswers.of_exec (exec_readMem_of_read hs rfl) hs
  · exact RunAnswers.of_exec (exec_writeMem_of_running hs a d) hs
  · exact RunAnswers.of_exec (exec_readWord_of_running hs a) hs
  · exact RunFaults.of_exec (exec_of_failing_check hs (faultOfLegal_regRead_unwritten i hi))
  · exact RunFaults.of_exec (exec_addressMode_of_unset_pc hi hs rfl)
  · exact RunFaults.cons writeX (.cons writeXThenY (.of_exec (exec_addressMode_of_unset_pc hi hs rfl)))
  · exact RunAnswers.cons writePc (runAnswers_plainMode hi notX notY hs rfl)
  · exact RunAnswers.cons writePc (.cons writePcThenX (runAnswers_xMode hi isX hs rfl rfl))
  · exact RunFaults.cons writePc (.cons writePcThenY (.of_exec (exec_xMode_of_unset hi isX hs rfl)))
  · exact RunAnswers.cons writePc (.cons writePcThenY (runAnswers_yMode hi isY hs rfl rfl))
  · exact RunFaults.cons writePc (.cons writePcThenX (.of_exec (exec_yMode_of_unset hi isY hs rfl)))

end Sys2Proof.Machine
end

section
/-! PROOFS. The encoding as a whole: the round trip in both directions (O2, O3), the refused words (O4), the rows of the
opcode table (O5), words written out (O1) and the packed response (O47). -/

namespace Sys2Proof

variable {w : Command}

/-! ### The command read back from its own word -/

theorem decode_formatR (mode : BitVec 4) : decode (formatR mode) = decodeMode mode := by
  simp [decode]

theorem decode_formatByteWrite (value : Byte) (reg : BitVec 3) :
    decode (formatByteWrite value reg) = decodeRegWrite (formatByteWrite value reg) := by
  simp [decode]

theorem decode_formatG_regRead (reg : BitVec 3) : decode (formatG 0 reg 5) = decodeRegRead reg := by
  simp [decode]

/-- Each format has a field for every operand of its commands, and the decoder reads that field (R42 to R46). -/
theorem decode_encode (i : Instr) : decode (encode i) = .ok i := by
  cases i
  case readMem | writeMem | readWord => simp [encode, decode]
  case resolveAbs | resolveAbsx | resolveAbsy | resolveZp | resolveZpx | resolveZpy | resolveImm | resolveRel |
      resolveImp | resolveInd | resolveIzx | resolveIzy => exact decode_formatR _
  case regWritePc => simp [encode, decode, decodeRegWrite]
  case regWriteS | regWriteA | regWriteX | regWriteY | regWriteP =>
    simp [encode, decode_formatByteWrite, decodeRegWrite, decodeByteWrite]
  case regReadPc | regReadS | regReadA | regReadX | regReadY | regReadP => exact decode_formatG_regRead _

/-! ### The rows of the opcode table -/

/-- The word of a command passes the test of the command's own row. -/
theorem row_matches_encode (i : Instr) : i.row.matches (encode i) = true := by
  cases i with
  | readMem addr => exact (Laws.OpcodeRow.readMem addr).1
  | writeMem addr data => exact (Laws.OpcodeRow.writeMem addr data).1
  | readWord addr => exact (Laws.OpcodeRow.readWord addr).1
  | regWritePc value => exact (Laws.OpcodeRow.regWritePc value).1
  | regWriteS value => exact (Laws.OpcodeRow.regWriteS value).1
  | regWriteA value => exact (Laws.OpcodeRow.regWriteA value).1
  | regWriteX value => exact (Laws.OpcodeRow.regWriteX value).1
  | regWriteY value => exact (Laws.OpcodeRow.regWriteY value).1
  | regWriteP value => exact (Laws.OpcodeRow.regWriteP value).1
  | _ => decide

/-- A field that the row's mask covers is the pattern's own. -/
theorem extract_eq_of_matches {pattern mask : Command} (h : OpcodeRow.matches ⟨pattern, mask⟩ w = true) (lo len : Nat)
    (hmask : mask.extractLsb' lo len = BitVec.allOnes len) : w.extractLsb' lo len = pattern.extractLsb' lo len := by
  have hpattern : w &&& mask = pattern := of_decide_eq_true h
  rw [← hpattern, BitVec.extractLsb'_and, hmask, BitVec.and_allOnes]

/-- The rows of READ_MEM and READ_WORD cover all but `addr` (R52, R54). -/
theorem formatM_of_read_row {op : BitVec 3} (h : OpcodeRow.matches ⟨formatM 0 0 op, 0x0000FFFF⟩ w = true) :
    formatM (addrField w) 0 op = w := by
  have hop : opField w = op := (extract_eq_of_matches h 0 3 rfl).trans (opField_formatM 0 0 op)
  have hspare : spareFieldM w = 0 := (extract_eq_of_matches h 3 5 rfl).trans (spareFieldM_formatM 0 0 op)
  have hdata : dataField w = 0 := (extract_eq_of_matches h 8 8 rfl).trans (dataField_formatM 0 0 op)
  rw [← hop, ← hdata]
  exact formatM_of_fields hspare

/-- The row of WRITE_MEM covers all but `addr` and `data` (R53). -/
theorem formatM_of_write_row {op : BitVec 3} (h : OpcodeRow.matches ⟨formatM 0 0 op, 0x000000FF⟩ w = true) :
    formatM (addrField w) (dataField w) op = w := by
  have hop : opField w = op := (extract_eq_of_matches h 0 3 rfl).trans (opField_formatM 0 0 op)
  have hspare : spareFieldM w = 0 := (extract_eq_of_matches h 3 5 rfl).trans (spareFieldM_formatM 0 0 op)
  rw [← hop]
  exact formatM_of_fields hspare

/-- The row of REG_WRITE.PC covers all but `value` (R77). -/
theorem formatG_of_pc_row {reg op : BitVec 3} (h : OpcodeRow.matches ⟨formatG 0 reg op, 0x0000FFFF⟩ w = true) :
    formatG (wordValueField w) reg op = w := by
  have hop : opField w = op := (extract_eq_of_matches h 0 3 rfl).trans (opField_formatG 0 op reg)
  have hspare : spareFieldG w = 0 := (extract_eq_of_matches h 6 10 rfl).trans (spareFieldG_formatG 0 op reg)
  have hreg : regField w = reg := (extract_eq_of_matches h 3 3 rfl).trans (regField_formatG 0 op reg)
  rw [← hop, ← hreg]
  exact formatG_of_fields hspare

/-- The rows of REG_WRITE to an 8-bit register cover all but the byte of `value` (R78 to R82). -/
theorem formatByteWrite_of_row {reg : BitVec 3}
    (h : OpcodeRow.matches ⟨formatByteWrite 0 reg, 0xFF00FFFF⟩ w = true) : formatByteWrite (byteValueField w) reg = w := by
  have hop : opField w = 4 := (extract_eq_of_matches h 0 3 rfl).trans (opField_formatByteWrite 0 reg)
  have hspare : spareFieldG w = 0 := (extract_eq_of_matches h 6 10 rfl).trans (spareFieldG_formatByteWrite 0 reg)
  have hhigh : byteValueSpareField w = 0 :=
    (extract_eq_of_matches h 24 8 rfl).trans (byteValueSpareField_formatByteWrite 0 reg)
  have hreg : regField w = reg := (extract_eq_of_matches h 3 3 rfl).trans (regField_formatByteWrite 0 reg)
  rw [← hreg]
  exact formatByteWrite_of_fields hop hspare hhigh

/-- A row whose mask covers the whole word has one word. -/
theorem pattern_eq_of_full_row {pattern : Command} (h : OpcodeRow.matches ⟨pattern, 0xFFFFFFFF⟩ w = true) :
    pattern = w := by
  have hpattern : w &&& BitVec.allOnes 32 = pattern := of_decide_eq_true h
  rw [← hpattern, BitVec.and_allOnes]

/-- A word that passes a row's test is the word of a command of that row: what the mask leaves out are operands. -/
theorem exists_encode_of_matches (i : Instr) (h : i.row.matches w = true) : ∃ j, encode j = w ∧ j.row = i.row := by
  cases i with
  | readMem => exact ⟨.readMem (addrField w), formatM_of_read_row h, rfl⟩
  | writeMem => exact ⟨.writeMem (addrField w) (dataField w), formatM_of_write_row h, rfl⟩
  | readWord => exact ⟨.readWord (addrField w), formatM_of_read_row h, rfl⟩
  | regWritePc => exact ⟨.regWritePc (wordValueField w), formatG_of_pc_row h, rfl⟩
  | regWriteS => exact ⟨.regWriteS (byteValueField w), formatByteWrite_of_row h, rfl⟩
  | regWriteA => exact ⟨.regWriteA (byteValueField w), formatByteWrite_of_row h, rfl⟩
  | regWriteX => exact ⟨.regWriteX (byteValueField w), formatByteWrite_of_row h, rfl⟩
  | regWriteY => exact ⟨.regWriteY (byteValueField w), formatByteWrite_of_row h, rfl⟩
  | regWriteP => exact ⟨.regWriteP (byteValueField w), formatByteWrite_of_row h, rfl⟩
  | _ =>
    refine ⟨_, ?_, rfl⟩
    exact pattern_eq_of_full_row h

/-! ### The statements -/

/-- Settles O2: format by format, the decoder reads the fields that the encoder fills. -/
theorem decodeOfEncodeIsTheCommand : Obligations.DecodeOfEncodeIsTheCommand := by
  unfold Obligations.DecodeOfEncodeIsTheCommand
  exact decode_encode

/-- Settles O3: a legal word is put together again from the fields that the decoder reads. -/
theorem encodeOfDecodeIsTheWord : Obligations.EncodeOfDecodeIsTheWord := by
  unfold Obligations.EncodeOfDecodeIsTheWord
  exact fun w i h => encode_of_decode h

/-- Settles O4: the two refusals exactly, so that what is left over decodes. -/
theorem decoderRefusesExactlyTheReservedSpace : Obligations.DecoderRefusesExactlyTheReservedSpace := by
  unfold Obligations.DecoderRefusesExactlyTheReservedSpace
  refine fun w => ⟨decode_eq_illegalCommand_iff, decode_eq_reservedMode_iff, ?_⟩
  have hwf : Command.wellFormed w = true ↔
      ¬decode w = .error .illegalCommand ∧ ¬decode w = .error .reservedMode := by
    simp [Command.wellFormed, decode_eq_illegalCommand_iff, decode_eq_reservedMode_iff]
  rw [hwf]
  cases decode w with
  | ok i => simp
  | error e => cases e <;> simp

/-- Settles O5: a word of the row is some command's word, which decodes to that command; and a decoded command's word is
in its row. -/
theorem opcodeRowsDecideTheCommand : Obligations.OpcodeRowsDecideTheCommand := by
  unfold Obligations.OpcodeRowsDecideTheCommand
  refine fun w i => ⟨fun h => ?_, fun ⟨j, hj, hrow⟩ => ?_⟩
  · obtain ⟨j, rfl, hrow⟩ := exists_encode_of_matches i h
    exact ⟨j, decode_encode j, hrow⟩
  · rw [← hrow, ← encode_of_decode hj]
    exact row_matches_encode j

/-- Settles O1: the decoder evaluated on the ten words. -/
theorem decodeOfWordsFromTheSpec : Obligations.DecodeOfWordsFromTheSpec := by
  unfold Obligations.DecodeOfWordsFromTheSpec
  decide

/-- Settles O47: the number of a concatenation. -/
theorem responsePacksStatusAboveValue : Obligations.ResponsePacksStatusAboveValue := by
  unfold Obligations.ResponsePacksStatusAboveValue
  exact fun r => toNat_append_eq r.status r.value

end Sys2Proof
end

section
/-! PROOFS. What every command and every step keeps: the access matrix (O32), the invariant (O46, O45), written registers
(O33), the parameters and the order of inputs (O44), and that no word raises OutOfRangeAccess (O39); then the step itself
(O43) and the reset (O40, O41). -/

namespace Sys2Proof.Machine

variable {s t : State} {i : Instr} {w : Command}

/-! ### The access matrix -/

@[simp] theorem writeEffect_fault : (writeEffect i s).fault = s.fault := by cases i <;> rfl
@[simp] theorem writeEffect_pending : (writeEffect i s).pending = s.pending := by cases i <;> rfl
@[simp] theorem writeEffect_config : (writeEffect i s).config = s.config := by cases i <;> rfl

/-- R23's matrix for the command `i` between two states: the registers and memory, each kept or written by the one
command that may. -/
def KeepsOrWrites (i : Instr) (s t : State) : Prop :=
  (t.regs.pc = s.regs.pc ∨ ∃ v, i = .regWritePc v ∧ t.regs.pc = .val v) ∧
  (t.regs.s = s.regs.s ∨ ∃ v, i = .regWriteS v ∧ t.regs.s = .val v) ∧
  (t.regs.a = s.regs.a ∨ ∃ v, i = .regWriteA v ∧ t.regs.a = .val v) ∧
  (t.regs.x = s.regs.x ∨ ∃ v, i = .regWriteX v ∧ t.regs.x = .val v) ∧
  (t.regs.y = s.regs.y ∨ ∃ v, i = .regWriteY v ∧ t.regs.y = .val v) ∧
  (t.regs.p = s.regs.p ∨ ∃ v, i = .regWriteP v ∧ t.regs.p = .val v) ∧
  (t.mem = s.mem ∨ ∃ a d, i = .writeMem a d ∧ t.mem = s.mem.write a d)

theorem KeepsOrWrites.of_kept (hregs : t.regs = s.regs) (hmem : t.mem = s.mem) : KeepsOrWrites i s t :=
  ⟨.inl (hregs ▸ rfl), .inl (hregs ▸ rfl), .inl (hregs ▸ rfl), .inl (hregs ▸ rfl), .inl (hregs ▸ rfl),
    .inl (hregs ▸ rfl), .inl hmem⟩

theorem writeEffect_keepsOrWrites : KeepsOrWrites i s (writeEffect i s) := by
  cases i with
  | regWritePc v => exact ⟨.inr ⟨v, rfl, rfl⟩, .inl rfl, .inl rfl, .inl rfl, .inl rfl, .inl rfl, .inl rfl⟩
  | regWriteS v => exact ⟨.inl rfl, .inr ⟨v, rfl, rfl⟩, .inl rfl, .inl rfl, .inl rfl, .inl rfl, .inl rfl⟩
  | regWriteA v => exact ⟨.inl rfl, .inl rfl, .inr ⟨v, rfl, rfl⟩, .inl rfl, .inl rfl, .inl rfl, .inl rfl⟩
  | regWriteX v => exact ⟨.inl rfl, .inl rfl, .inl rfl, .inr ⟨v, rfl, rfl⟩, .inl rfl, .inl rfl, .inl rfl⟩
  | regWriteY v => exact ⟨.inl rfl, .inl rfl, .inl rfl, .inl rfl, .inr ⟨v, rfl, rfl⟩, .inl rfl, .inl rfl⟩
  | regWriteP v => exact ⟨.inl rfl, .inl rfl, .inl rfl, .inl rfl, .inl rfl, .inr ⟨v, rfl, rfl⟩, .inl rfl⟩
  | writeMem a d => exact ⟨.inl rfl, .inl rfl, .inl rfl, .inl rfl, .inl rfl, .inl rfl, .inr ⟨a, d, rfl, rfl⟩⟩
  | _ => exact .of_kept rfl rfl

theorem exec_keepsOrWrites (h : exec i s = .next t) : KeepsOrWrites i s t := by
  obtain ⟨-, ⟨cause, -, rfl⟩ | ⟨v, rfl⟩⟩ := exec_next_cases h
  · exact .of_kept rfl rfl
  · exact writeEffect_keepsOrWrites

/-- No command reads or takes the host's later inputs, or changes the parameters (R23; logs 2, 4). -/
theorem exec_config_pending (h : exec i s = .next t) : t.config = s.config ∧ t.pending = s.pending := by
  obtain ⟨-, ⟨cause, -, rfl⟩ | ⟨v, rfl⟩⟩ := exec_next_cases h
  · exact ⟨rfl, rfl⟩
  · exact ⟨writeEffect_config, writeEffect_pending⟩

/-- A command that faults writes nothing (R95). -/
theorem exec_kept_of_fault (h : exec i s = .next t) (hf : t.fault ≠ none) : t.regs = s.regs ∧ t.mem = s.mem := by
  obtain ⟨hs, ⟨cause, -, rfl⟩ | ⟨v, rfl⟩⟩ := exec_next_cases h
  · exact ⟨rfl, rfl⟩
  · exact absurd (writeEffect_fault.trans hs) hf

/-! ### What a transaction keeps -/

theorem running_of_transact (h : transact w s = .next t) : s.running := by
  cases hf : s.fault with
  | none => exact hf
  | some record => simp [transact_of_halted hf] at h

/-- A transaction writes as its command does; a word that names none writes as little as RESOLVE.IMP, nothing. -/
theorem transact_keepsOrWrites (h : transact w s = .next t) : ∃ i, KeepsOrWrites i s t := by
  obtain ⟨i, -, hexec⟩ | ⟨e, -, -, rfl⟩ := transact_next_cases h
  · exact ⟨i, exec_keepsOrWrites hexec⟩
  · exact ⟨.resolveImp, .of_kept rfl rfl⟩

theorem transact_config_pending (h : transact w s = .next t) : t.config = s.config ∧ t.pending = s.pending := by
  obtain ⟨i, -, hexec⟩ | ⟨e, -, -, rfl⟩ := transact_next_cases h
  · exact exec_config_pending hexec
  · exact ⟨rfl, rfl⟩

theorem KeepsOrWrites.mem_wf (h : KeepsOrWrites i s t) (hm : s.mem.wf) : t.mem.wf := by
  obtain ⟨-, -, -, -, -, -, hkept | ⟨a, d, -, hwritten⟩⟩ := h
  · rwa [hkept]
  · rw [hwritten]
    exact Memory.write_wf hm a d

/-! ### The invariant -/

/-- A transaction keeps the invariant: R98's checks explain the latch that it sets, on registers that it leaves. -/
theorem transact_keeps_inv (hinv : s.Inv) (h : transact w s = .next t) : t.Inv := by
  have hs := running_of_transact h
  obtain ⟨i, hwrites⟩ := transact_keepsOrWrites h
  refine ⟨hwrites.mem_wf hinv.memWf, fun record hf => ?_, fun hf r hr => ?_⟩
  · obtain ⟨hcause, rfl, rfl⟩ := transact_fault_entry hs h hf
    exact ⟨hcause, rfl⟩
  · have hends := transact_ends w hs
    rw [h] at hends
    generalize faultOf w s.regs = checks at hends
    cases hends with
    | faults cause => simp at hf
    | responds v => exact Option.some.inj hr ▸ rfl

/-- The invariant does not speak of the inputs still to come. -/
theorem setPending_inv {rest : List HostInput} (hinv : s.Inv) : (setPending rest s).Inv :=
  ⟨hinv.memWf, hinv.latchExplained, hinv.clearMeansSuccess⟩

theorem hostReset_inv (image : Image) : (hostReset image s).Inv :=
  ⟨Memory.ofImage_wf image, nofun, nofun⟩

/-- No check on R98's list gives this cause, since every u16 is an address (R94). -/
theorem faultOf_ne_outOfRangeAccess {r : RegFile} : faultOf w r ≠ some .outOfRangeAccess := by
  unfold faultOf
  split_ifs <;> simp

/-! ### The command that a step runs -/

theorem transact_of_decode (hd : decode w = .ok i) : transact w s = exec i s := by simp only [transact, hd]

theorem step_of_refused_word {rest : List HostInput} {e : DecodeError} (hs : s.running)
    (hp : s.pending = .command w :: rest) (hd : decode w = .error e) :
    step s = .next (enterFault (causeOfDecodeError e) w (setPending rest s)) := by
  rw [step_of_command hp]
  exact transact_of_decode_error (s := setPending rest s) hs hd

theorem decodeTableWord_eq_some {nbits n : Nat} (h : decodeTableWord nbits n = some i) :
    decode (commandOfTableWord nbits n) = .ok i := by
  unfold decodeTableWord at h
  split at h
  · rename_i j hd
    rw [hd, Option.some.inj h]
  · cases h

/-! ### Written registers -/

theorem ne_unset_of_kept_or_written {α : Type} {c c' : RegCell α} {P : α → Prop}
    (h : c' = c ∨ ∃ v, P v ∧ c' = .val v) (hc : c ≠ .unset) : c' ≠ .unset := by
  obtain rfl | ⟨v, -, rfl⟩ := h
  · exact hc
  · exact nofun

/-! ### The statements -/

/-- Settles O46: a wait changes nothing, a transaction is `transact_keeps_inv`, and a reset starts afresh. -/
theorem stepKeepsTheInvariant : Obligations.StepKeepsTheInvariant := by
  unfold Obligations.StepKeepsTheInvariant
  intro s t hinv h
  obtain ⟨-, -, rfl⟩ | ⟨w, rest, -, htransact⟩ | ⟨image, rest, -, rfl⟩ := step_next_cases h
  · exact hinv
  · exact transact_keeps_inv (setPending_inv hinv) htransact
  · exact hostReset_inv image

/-- Settles O32: the write effect of each command, column by column. -/
theorem accessMatrixOfAllCommands : Obligations.AccessMatrixOfAllCommands := by
  unfold Obligations.AccessMatrixOfAllCommands
  intro i s t h
  obtain ⟨hpc, hS, ha, hx, hy, hp, hmem⟩ := exec_keepsOrWrites h
  obtain ⟨hconfig, hpending⟩ := exec_config_pending h
  exact ⟨hpc, hS, ha, hx, hy, hp, hmem, hconfig, hpending, exec_kept_of_fault h⟩

/-- Settles O33: the access matrix writes values only. -/
theorem onlyResetMakesARegisterUnset : Obligations.OnlyResetMakesARegisterUnset := by
  unfold Obligations.OnlyResetMakesARegisterUnset
  intro s t h hreset
  obtain ⟨-, -, rfl⟩ | ⟨w, rest, -, htransact⟩ | ⟨image, rest, hp, -⟩ := step_next_cases h
  · exact ⟨id, id, id, id, id, id⟩
  · obtain ⟨i, hpc, hS, ha, hx, hy, hp, -⟩ := transact_keepsOrWrites htransact
    exact ⟨ne_unset_of_kept_or_written hpc, ne_unset_of_kept_or_written hS, ne_unset_of_kept_or_written ha,
      ne_unset_of_kept_or_written hx, ne_unset_of_kept_or_written hy, ne_unset_of_kept_or_written hp⟩
  · exact absurd hp (hreset image rest)

/-- Settles O39: no check on R98's list gives the cause. -/
theorem outOfRangeAccessIsUnreachable : Obligations.OutOfRangeAccessIsUnreachable := by
  unfold Obligations.OutOfRangeAccessIsUnreachable
  intro s t w cmd hs h hf
  obtain ⟨hcause, -, -⟩ := transact_fault_entry hs h hf
  exact faultOf_ne_outOfRangeAccess hcause

/-- Settles O40: the image's bytes are `Memory.read_ofImage`, and every image has the list form. -/
theorem resetLoadsTheImageAndUnsetsTheRegisters : Obligations.ResetLoadsTheImageAndUnsetsTheRegisters := by
  unfold Obligations.ResetLoadsTheImageAndUnsetsTheRegisters
  refine ⟨fun s image rest hp => ?_, Image.exists_byteAt_eq⟩
  exact ⟨_, step_of_reset hp, Memory.read_ofImage image, rfl, rfl, rfl, rfl, rfl, rfl, rfl, rfl, rfl, rfl, rfl⟩

/-- Settles O41: of the three things a step can do, a set latch leaves the reset. -/
theorem onlyResetLeavesAFault : Obligations.OnlyResetLeavesAFault := by
  unfold Obligations.OnlyResetLeavesAFault
  refine fun s record hf => ⟨fun image rest hp => ⟨_, step_of_reset hp, rfl⟩, fun t h => ?_⟩
  obtain ⟨-, hs, -⟩ | ⟨w, rest, -, htransact⟩ | ⟨image, rest, hp, rfl⟩ := step_next_cases h
  · simp [hf] at hs
  · have hs : (setPending rest s).fault = none := running_of_transact htransact
    simp [hf] at hs
  · exact ⟨image, rest, hp, rfl, rfl⟩

/-- Settles O44: a step takes the head of the inputs, and what runs then keeps the rest and the parameters. -/
theorem stepTakesInputsInOrderAndKeepsTheParameters : Obligations.StepTakesInputsInOrderAndKeepsTheParameters := by
  unfold Obligations.StepTakesInputsInOrderAndKeepsTheParameters
  intro s t h
  obtain ⟨hp, -, rfl⟩ | ⟨w, rest, hp, htransact⟩ | ⟨image, rest, hp, rfl⟩ := step_next_cases h
  · rw [hp]
    exact ⟨rfl, rfl⟩
  · rw [hp]
    exact transact_config_pending htransact
  · rw [hp]
    exact ⟨rfl, rfl⟩

/-- Settles O43: the step on each form of the inputs, and the decoder's two refusals. -/
theorem stepRunsTheDecodedCommand : Obligations.StepRunsTheDecodedCommand := by
  unfold Obligations.StepRunsTheDecodedCommand
  refine ⟨fun s w rest i hp hd => ?_, fun s w rest hs hp => ⟨step_of_refused_word hs hp, step_of_refused_word hs hp⟩,
    fun s hs hp => ?_, fun s nbits n i hd => ?_⟩
  · rw [step_of_command hp, transact_of_decode hd, setPending]
  · rw [step_of_no_input hp, whileRunning_of_running hs]
  · rw [step_withFetchWord]
    exact transact_of_decode (decodeTableWord_eq_some hd)

/-- Settles O45: after reset nothing is listed, nothing is latched and nothing is answered. -/
theorem resetStateHasTheInvariant : Obligations.ResetStateHasTheInvariant := by
  unfold Obligations.ResetStateHasTheInvariant
  exact ⟨⟨State.reset_mem_wf, nofun, nofun⟩, rfl, rfl, rfl, rfl, rfl, fun _ => rfl⟩

end Sys2Proof.Machine
end

section
/-! PROOFS. What decides the outcome of a command: the inputs of RESOLVE (O24), the parameters (O25), S, A and P (O31).
All three compare one command on two states, as `EndsAlike` says it once. -/

namespace Sys2Proof.Machine

variable {s s' t : State} {i : Instr} {index : RegFile → RegCell Byte}

/-! ### One command on two states -/

/-- The command `i` steps from both states to the same fault, or to the same response after its write. -/
def EndsAlike (i : Instr) (s s' : State) : Prop :=
  (∃ cause, exec i s = .next (enterFault cause (encode i) s) ∧ exec i s' = .next (enterFault cause (encode i) s')) ∨
    ∃ v, exec i s = .next (respond v (writeEffect i s)) ∧ exec i s' = .next (respond v (writeEffect i s'))

/-- REG_READ ends alike where its cell is the same (R76). -/
theorem endsAlike_of_readPort {α : Type} {toWord : α → Word} (cell : RegFile → RegCell α)
    (h : ∀ s, exec i s = readPort (encode i) (cell s.regs) toWord s) (hwrite : ∀ s, writeEffect i s = s)
    (hs : s.running) (hs' : s'.running) (hcell : cell s.regs = cell s'.regs) : EndsAlike i s s' := by
  rw [EndsAlike, h, h, hwrite, hwrite, ← hcell]
  cases hc : cell s.regs with
  | unset => exact .inl ⟨_, readPort_of_unset rfl hs rfl, readPort_of_unset rfl hs' rfl⟩
  | val v => exact .inr ⟨_, readPort_of_val hs rfl, readPort_of_val hs' rfl⟩

/-- A plain form ends alike where PC is the same and memory and parameters give the same address (R55). -/
theorem HasPlainForm.endsAlike {ea : Config → Memory → Word → Word} (h : HasPlainForm i ea)
    (hwrite : ∀ s, writeEffect i s = s) (hs : s.running) (hs' : s'.running) (hpc : s.regs.pc = s'.regs.pc)
    (hea : ∀ pc, s.regs.pc = .val pc →
      ea s.config s.mem (operandAddress pc) = ea s'.config s'.mem (operandAddress pc)) : EndsAlike i s s' := by
  cases hv : s.regs.pc with
  | unset => exact .inl ⟨_, h.exec_of_unset hs hv, h.exec_of_unset hs' (hpc ▸ hv)⟩
  | val pc =>
    rw [EndsAlike, h, h, hwrite, hwrite]
    exact .inr ⟨_, resolveWith_of_val hs hv, hea pc hv ▸ resolveWith_of_val hs' (hpc ▸ hv)⟩

/-- An indexed form, likewise, where its index is the same too (R55, R57). -/
theorem HasIndexedForm.endsAlike {ea : Config → Memory → Word → Byte → Word} (h : HasIndexedForm i index ea)
    (hwrite : ∀ s, writeEffect i s = s) (hs : s.running) (hs' : s'.running) (hpc : s.regs.pc = s'.regs.pc)
    (hidx : index s.regs = index s'.regs)
    (hea : ∀ pc idx, s.regs.pc = .val pc → index s.regs = .val idx →
      ea s.config s.mem (operandAddress pc) idx = ea s'.config s'.mem (operandAddress pc) idx) : EndsAlike i s s' := by
  cases hv : s.regs.pc with
  | unset => exact .inl ⟨_, h.exec_of_unset hs (.inl hv), h.exec_of_unset hs' (.inl (hpc ▸ hv))⟩
  | val pc =>
    cases hi : index s.regs with
    | unset => exact .inl ⟨_, h.exec_of_unset hs (.inr hi), h.exec_of_unset hs' (.inr (hidx ▸ hi))⟩
    | val idx =>
      rw [EndsAlike, h, h, hwrite, hwrite]
      exact .inr ⟨_, resolveIndexedWith_of_val hs hv hi,
        hea pc idx hv hi ▸ resolveIndexedWith_of_val hs' (hpc ▸ hv) (hidx ▸ hi)⟩

/-! ### An effective address depends on the bytes of memory, not on how they are listed -/

section
variable {m m' : Memory} (h : ∀ a, m.read a = m'.read a) (cfg : Config) (opnd : Word) (idx zp : Byte)
include h

theorem eaAbsoluteIndexed_congr : eaAbsoluteIndexed m opnd idx = eaAbsoluteIndexed m' opnd idx := by
  rw [eaAbsoluteIndexed, readWord_congr h, eaAbsoluteIndexed]

theorem eaZeroPage_congr : eaZeroPage m opnd = eaZeroPage m' opnd := by
  rw [eaZeroPage, h, eaZeroPage]

theorem eaZeroPageIndexed_congr : eaZeroPageIndexed m opnd idx = eaZeroPageIndexed m' opnd idx := by
  rw [eaZeroPageIndexed, h, eaZeroPageIndexed]

theorem eaRelative_congr : eaRelative m opnd = eaRelative m' opnd := by
  rw [eaRelative, h, eaRelative]

theorem eaIndirect_congr : eaIndirect cfg m opnd = eaIndirect cfg m' opnd := by
  simp only [eaIndirect, readWord_congr h, h]

theorem zpWord_congr : zpWord cfg m zp = zpWord cfg m' zp := by
  rw [zpWord, h, h, zpWord]

theorem eaIndexedIndirect_congr : eaIndexedIndirect cfg m opnd idx = eaIndexedIndirect cfg m' opnd idx := by
  rw [eaIndexedIndirect, zpWord_congr h, h, eaIndexedIndirect]

theorem eaIndirectIndexed_congr : eaIndirectIndexed cfg m opnd idx = eaIndirectIndexed cfg m' opnd idx := by
  rw [eaIndirectIndexed, zpWord_congr h, h, eaIndirectIndexed]

end

/-! ### What a command reads -/

/-- The REG_READ of the registers that nothing else reads (R18, R23). -/
def opaqueReads : List Instr := [.regReadS, .regReadA, .regReadP]

/-- The modes that read a parameter of R8 (R67, R68). -/
def parameterModes : List Instr := [.resolveInd, .resolveIzx, .resolveIzy]

/-- Two running blocks with the same PC, X, Y and bytes of memory give every command the same end, where also S, A and P
are the same for the commands that read one of them, and the parameters for the modes that read one. -/
theorem exec_endsAlike (hs : s.running) (hs' : s'.running) (hpc : s.regs.pc = s'.regs.pc)
    (hx : s.regs.x = s'.regs.x) (hy : s.regs.y = s'.regs.y) (hmem : ∀ a, s.mem.read a = s'.mem.read a)
    (hopaque : i ∈ opaqueReads → s.regs = s'.regs) (hconfig : i ∈ parameterModes → s.config = s'.config) :
    EndsAlike i s s' := by
  cases i
  case readMem a => exact .inr ⟨_, exec_readMem_of_read hs (hmem a), exec_readMem_of_read hs' rfl⟩
  case writeMem a d => exact .inr ⟨_, exec_writeMem_of_running hs a d, exec_writeMem_of_running hs' a d⟩
  case readWord a =>
    exact .inr ⟨_, exec_readWord_of_running hs a, readWord_congr hmem a ▸ exec_readWord_of_running hs' a⟩
  case resolveImp => exact .inl ⟨_, exec_resolveImp_of_running hs, exec_resolveImp_of_running hs'⟩
  case regWritePc | regWriteS | regWriteA | regWriteX | regWriteY | regWriteP =>
    exact .inr ⟨_, writePort_of_running hs, writePort_of_running hs'⟩
  case regReadPc => exact endsAlike_of_readPort (·.pc) (fun _ => rfl) (fun _ => rfl) hs hs' hpc
  case regReadX => exact endsAlike_of_readPort (·.x) (fun _ => rfl) (fun _ => rfl) hs hs' hx
  case regReadY => exact endsAlike_of_readPort (·.y) (fun _ => rfl) (fun _ => rfl) hs hs' hy
  case regReadS =>
    exact endsAlike_of_readPort (·.s) (fun _ => rfl) (fun _ => rfl) hs hs' (congrArg (·.s) (hopaque (by decide)))
  case regReadA =>
    exact endsAlike_of_readPort (·.a) (fun _ => rfl) (fun _ => rfl) hs hs' (congrArg (·.a) (hopaque (by decide)))
  case regReadP =>
    exact endsAlike_of_readPort (·.p) (fun _ => rfl) (fun _ => rfl) hs hs' (congrArg (·.p) (hopaque (by decide)))
  case resolveAbs =>
    exact resolveAbs_form.endsAlike (fun _ => rfl) hs hs' hpc fun _ _ => readWord_congr hmem _
  case resolveAbsx =>
    exact resolveAbsx_form.endsAlike (fun _ => rfl) hs hs' hpc hx fun _ _ _ _ => eaAbsoluteIndexed_congr hmem _ _
  case resolveAbsy =>
    exact resolveAbsy_form.endsAlike (fun _ => rfl) hs hs' hpc hy fun _ _ _ _ => eaAbsoluteIndexed_congr hmem _ _
  case resolveZp =>
    exact resolveZp_form.endsAlike (fun _ => rfl) hs hs' hpc fun _ _ => eaZeroPage_congr hmem _
  case resolveZpx =>
    exact resolveZpx_form.endsAlike (fun _ => rfl) hs hs' hpc hx fun _ _ _ _ => eaZeroPageIndexed_congr hmem _ _
  case resolveZpy =>
    exact resolveZpy_form.endsAlike (fun _ => rfl) hs hs' hpc hy fun _ _ _ _ => eaZeroPageIndexed_congr hmem _ _
  case resolveImm => exact resolveImm_form.endsAlike (fun _ => rfl) hs hs' hpc fun _ _ => rfl
  case resolveRel =>
    exact resolveRel_form.endsAlike (fun _ => rfl) hs hs' hpc fun _ _ => eaRelative_congr hmem _
  case resolveInd =>
    refine resolveInd_form.endsAlike (fun _ => rfl) hs hs' hpc fun _ _ => ?_
    rw [hconfig (by decide), eaIndirect_congr hmem]
  case resolveIzx =>
    refine resolveIzx_form.endsAlike (fun _ => rfl) hs hs' hpc hx fun _ _ _ _ => ?_
    rw [hconfig (by decide), eaIndexedIndirect_congr hmem]
  case resolveIzy =>
    refine resolveIzy_form.endsAlike (fun _ => rfl) hs hs' hpc hy fun _ _ _ _ => ?_
    rw [hconfig (by decide), eaIndirectIndexed_congr hmem]

/-! ### The parameters below the page's end -/

theorem indirectHighAddress_of_below {ptr : Word} (hlow : ptr.toNat % 256 ≠ 255) (cfg : Config) :
    indirectHighAddress cfg ptr = ptr + 1 := by
  rw [indirectHighAddress_eq, if_neg (hlow ·.2)]

theorem zpHighAddress_of_below {zp : Byte} (hzp : zp.toNat ≠ 255) (cfg : Config) :
    zpHighAddress cfg zp = BitVec.ofNat 16 (zp.toNat + 1) := by
  have hlt : zp.toNat + 1 < 256 := by omega
  rw [zpHighAddress_eq_ofNat, Nat.mod_eq_of_lt hlt, ite_self]

theorem zpWord_of_below {zp : Byte} (hzp : zp.toNat ≠ 255) (cfg cfg' : Config) (m : Memory) :
    zpWord cfg m zp = zpWord cfg' m zp := by
  rw [zpWord, zpHighAddress_of_below hzp, zpWord, zpHighAddress_of_below hzp]

theorem eaIndirect_of_below {pc : Word} (hlow : (operandByte s pc).toNat ≠ 255) (cfg cfg' : Config) :
    eaIndirect cfg s.mem (operandAddress pc) = eaIndirect cfg' s.mem (operandAddress pc) := by
  have hptr : (s.mem.readWord (operandAddress pc)).toNat % 256 ≠ 255 := by
    have := (operandByte s pc).isLt
    rw [readWord_toNat, read_operandAddress]
    omega
  rw [eaIndirect, indirectHighAddress_of_below hptr, eaIndirect, indirectHighAddress_of_below hptr]

/-- The parameters do not reach a command that reads none, nor a parameter mode whose pointer ends below its page's last
byte. -/
theorem endsAlike_of_config_below {c : Config} (hs : s.running) (h : i ∉ parameterModes ∨
    (∃ pc, s.regs.pc = .val pc ∧ i ≠ .resolveIzx ∧ (operandByte s pc).toNat ≠ 255) ∨
    (∃ pc x, s.regs.pc = .val pc ∧ s.regs.x = .val x ∧ i = .resolveIzx ∧
      ((operandByte s pc).toNat + x.toNat) % 256 ≠ 255)) : EndsAlike i s { s with config := c } := by
  have reads_none (hi : i ∉ parameterModes) : EndsAlike i s { s with config := c } :=
    exec_endsAlike hs hs rfl rfl rfl (fun _ => rfl) (fun _ => rfl) (absurd · hi)
  obtain hi | ⟨pc, hpc, hne, hlow⟩ | ⟨pc, x, hpc, hx, rfl, hlow⟩ := h
  · exact reads_none hi
  · by_cases hi : i ∈ parameterModes
    · obtain rfl | rfl : i = .resolveInd ∨ i = .resolveIzy := by simpa [parameterModes, hne] using hi
      · refine resolveInd_form.endsAlike (fun _ => rfl) hs hs rfl fun pc' hpc' => ?_
        obtain rfl := RegCell.val.inj (hpc.symm.trans hpc')
        exact eaIndirect_of_below hlow _ _
      · refine resolveIzy_form.endsAlike (fun _ => rfl) hs hs rfl rfl fun pc' y hpc' _ => ?_
        obtain rfl := RegCell.val.inj (hpc.symm.trans hpc')
        exact congrArg (add16 · (zext16 y)) (zpWord_of_below hlow _ _ _)
    · exact reads_none hi
  · refine resolveIzx_form.endsAlike (fun _ => rfl) hs hs rfl rfl fun pc' x' hpc' hx' => ?_
    obtain rfl := RegCell.val.inj (hpc.symm.trans hpc')
    obtain rfl := RegCell.val.inj (hx.symm.trans hx')
    have hzp : (add8 (operandByte s pc) x).toNat ≠ 255 := by rwa [add8_toNat]
    exact zpWord_of_below hzp _ _ _

theorem writeEffect_of_config (c : Config) :
    writeEffect i { s with config := c } = { writeEffect i s with config := c } := by
  cases i <;> rfl

theorem EndsAlike.exec_of_config {c : Config} (h : EndsAlike i s { s with config := c }) (hst : exec i s = .next t) :
    exec i { s with config := c } = .next { t with config := c } := by
  obtain ⟨cause, hexec, hexec'⟩ | ⟨v, hexec, hexec'⟩ := h
  · obtain rfl := Host.Outcome.next.inj (hexec.symm.trans hst)
    exact hexec'
  · obtain rfl := Host.Outcome.next.inj (hexec.symm.trans hst)
    rw [hexec', writeEffect_of_config]
    rfl

/-! ### S, A and P -/

/-- The registers with S, A and P replaced. -/
def RegFile.withOpaque (r : RegFile) (s a p : RegCell Byte) : RegFile := { r with s := s, a := a, p := p }

/-- A command writes the same memory, PC, X and Y whatever S, A and P hold. -/
theorem writeEffect_of_opaque (cs ca cp : RegCell Byte) :
    let u := writeEffect i { s with regs := s.regs.withOpaque cs ca cp }
    u.mem = (writeEffect i s).mem ∧ u.regs.pc = (writeEffect i s).regs.pc ∧ u.regs.x = (writeEffect i s).regs.x ∧
      u.regs.y = (writeEffect i s).regs.y := by
  cases i <;> exact ⟨rfl, rfl, rfl, rfl⟩

/-! ### The statements -/

/-- Settles O24: RESOLVE writes nothing, so ending alike is giving one response and one latch. -/
theorem resolveDependsOnItsInputsOnly : Obligations.ResolveDependsOnItsInputsOnly := by
  unfold Obligations.ResolveDependsOnItsInputsOnly
  intro i s s' hi hs hs' hpc hx hy hconfig hmem
  have hopaque : i ∉ opaqueReads := by revert i; decide
  obtain ⟨cause, h, h'⟩ | ⟨v, h, h'⟩ := exec_endsAlike hs hs' hpc hx hy hmem (absurd · hopaque) fun _ => hconfig
  · exact ⟨_, _, h, h', rfl, rfl⟩
  · exact ⟨_, _, h, h', rfl, by simp [hs, hs']⟩

/-- Settles O25: away from the page's end both settings of a parameter give one address. -/
theorem parametersMatterOnlyAtThePageEnd : Obligations.ParametersMatterOnlyAtThePageEnd := by
  unfold Obligations.ParametersMatterOnlyAtThePageEnd
  intro i s t c hst h
  obtain ⟨hs, -⟩ := exec_next_cases hst
  exact (endsAlike_of_config_below hs h).exec_of_config hst

/-- Settles O31: no command but the three reads S, A or P, and a write of one of them writes nothing else. -/
theorem opaqueRegistersChangeNoOutcome : Obligations.OpaqueRegistersChangeNoOutcome := by
  unfold Obligations.OpaqueRegistersChangeNoOutcome
  intro i st t s a p hi hst
  obtain ⟨hs, -⟩ := exec_next_cases hst
  have hs' : { st with regs := st.regs.withOpaque s a p }.running := hs
  obtain ⟨cause, h, h'⟩ | ⟨v, h, h'⟩ :=
    exec_endsAlike hs hs' rfl rfl rfl (fun _ => rfl) (absurd · hi) fun _ => rfl
  · obtain rfl := Host.Outcome.next.inj (h.symm.trans hst)
    exact ⟨_, h', rfl, rfl, rfl, rfl, rfl, rfl⟩
  · obtain rfl := Host.Outcome.next.inj (h.symm.trans hst)
    exact ⟨_, h', rfl, by simp, writeEffect_of_opaque s a p⟩

end Sys2Proof.Machine
end

section
/-! PROOFS. A RESOLVE right after a write (O26): the statement of its mode, read on the state that the write leaves. -/

namespace Sys2Proof.Machine

variable {s t : State} {i j : Instr} {cmd : Command} {index : RegFile → RegCell Byte} {pc : Word} {idx d : Byte}

/-- The run `is` from `s` answers the address `ea`. -/
def RunResolves (s : State) (is : List Instr) (ea : Nat) : Prop :=
  ∃ (t : State) (v : Word), runAll is s = .next t ∧ t.resp = some { status := 0, value := v } ∧ v.toNat = ea

theorem ResolvesTo.after_write {ea : State → Word → Nat} (h : ResolvesTo i cmd ea) (hwrite : exec j s = .next t)
    (ht : t.running) (hpc : t.regs.pc = .val pc) : RunResolves s [j, i] (ea t pc) := by
  obtain ⟨-, hall⟩ := h
  obtain ⟨v, hv, hexec⟩ := (hall t ht).1 pc hpc
  exact ⟨_, v, (runAll_cons_of_next hwrite).trans (runAll_cons_of_next hexec), rfl, hv⟩

theorem ResolvesIndexedTo.after_write {ea : State → Word → Byte → Nat} (h : ResolvesIndexedTo i cmd index ea)
    (hwrite : exec j s = .next t) (ht : t.running) (hpc : t.regs.pc = .val pc) (hidx : index t.regs = .val idx) :
    RunResolves s [j, i] (ea t pc idx) := by
  obtain ⟨-, hall⟩ := h
  obtain ⟨v, hv, hexec⟩ := (hall t ht).1 pc idx hpc hidx
  exact ⟨_, v, (runAll_cons_of_next hwrite).trans (runAll_cons_of_next hexec), rfl, hv⟩

/-! ### The operand and the pointer's low byte after a write -/

section
variable {a : Word} (hm : s.mem.wf) (ht : t.mem = s.mem.write a d)
include hm ht

theorem read_of_written : t.mem.read a = d := by rw [ht, Memory.read_write_same hm]

theorem operandByte_of_written (ha : a ≠ pc + 1) : operandByte t pc = operandByte s pc := by
  rw [operandByte, ht, Memory.read_write_of_ne hm d ha.symm, operandByte]

theorem operandWord_of_written (ha : a ≠ pc + 1) (ha' : a ≠ pc + 2) : operandWord t pc = operandWord s pc := by
  rw [operandWord, ht, Memory.read_write_of_ne hm d ha.symm, Memory.read_write_of_ne hm d ha'.symm, operandWord]

end

theorem indirectWord_low (s : State) (ptr : Word) : indirectWord s ptr % 256 = (s.mem.read ptr).toNat := by
  have := (s.mem.read ptr).isLt
  rw [indirectWord]
  omega

theorem zpPointer_low (s : State) (zp : Word) : zpPointer s zp.toNat % 256 = (s.mem.read zp).toNat := by
  have := (s.mem.read zp).isLt
  rw [zpPointer, BitVec.ofNat_toNat, BitVec.setWidth_eq]
  omega

/-! ### The statement -/

/-- Settles O26: the byte that the write stored is the one that the mode's address is computed from. -/
theorem resolveSeesEarlierWritesAtOnce : Obligations.ResolveSeesEarlierWritesAtOnce := by
  unfold Obligations.ResolveSeesEarlierWritesAtOnce
  intro s pc d hs hm hpc
  have write (a : Word) := exec_writeMem_of_running hs a d
  have writeX := exec_regWriteX_of_running hs d
  refine ⟨?_, ?_, fun ptr hptr hne hne' => ?_, fun x zp hx hzp hne => ?_, fun y zp hy hzp hne => ?_⟩
  · obtain ⟨t, v, hrun, hresp, hv⟩ := resolveZeroPageIsTheOperandByte.after_write (write (pc + 1)) hs hpc
    rw [operandByte, read_of_written hm rfl] at hv
    obtain rfl : v = zext16 d := BitVec.eq_of_toNat_eq (hv.trans (zext16_toNat d).symm)
    exact ⟨t, hrun, hresp⟩
  · exact resolveZeroPageXAddsXModulo256.after_write (t := respond 0 (setX d s)) writeX hs hpc rfl
  · obtain ⟨t, v, hrun, hresp, hv⟩ := resolveIndirectReadsTheWordAtThePointer.after_write (write ptr) hs hpc
    refine ⟨t, v, hrun, hresp, ?_⟩
    rw [hv, operandWord_of_written hm rfl hne hne', ← hptr, BitVec.ofNat_toNat, BitVec.setWidth_eq, indirectWord_low,
      read_of_written hm rfl]
  · obtain ⟨t, v, hrun, hresp, hv⟩ := resolveIndexedIndirectIndexesBeforeThePointer.after_write (write zp) hs hpc hx
    refine ⟨t, v, hrun, hresp, ?_⟩
    rw [hv, operandByte_of_written hm rfl hne, ← hzp, zpPointer_low, read_of_written hm rfl]
  · obtain ⟨t, v, hrun, hresp, hv⟩ := resolveIndirectIndexedIndexesAfterThePointer.after_write (write zp) hs hpc hy
    refine ⟨t, v, hrun, hresp, ?_⟩
    have hlow : zpPointer (respond 0 (storeByte zp d s)) zp.toNat % 256 = d.toNat := by
      rw [zpPointer_low, read_of_written hm rfl]
    rw [operandByte_of_written hm rfl hne, ← hzp] at hv
    omega

end Sys2Proof.Machine
end
